-- ==== Sys2Proof/Word.lean ====
section
/-! DEFINITION. The widths the spec computes with: bytes, 16-bit wire words, 32-bit registers (R8, R10, R21). -/

namespace Sys2Proof

/-- One byte of a byte string or of a buffer (00_scope.md R8). -/
abbrev Byte := BitVec 8

/-- A 16-bit wire word: a CRC, a header word, a frame count (00_scope.md R9). -/
abbrev Half := BitVec 16

/-- The value of a register, of a command word or of a 4-byte access (10_state.md R21). -/
abbrev Word := BitVec 32

/-- An 18-bit offset into the block's host bus window (20_memory.md R50). -/
abbrev Offset := BitVec 18

end Sys2Proof
end

