-- ==== Sys2Proof/Config.lean ====
section
/-! DEFINITION. What an implementation fixes (the parameters of 00_scope.md R6) and the values the spec
leaves unspecified (10_state.md R35) or is silent on (30_encoding.md R95). -/

namespace Sys2Proof

/-- The two buffer capacities, parameters of a build (00_scope.md R6): bytes of IN and bytes of OUT.
They stand in the state, where the registers IN_CAP and OUT_CAP read them, so that a statement about
every state is a statement about every build. -/
structure Params where
  /-- `IN_CAP`, 1 to 65536. -/
  inCap : Nat
  /-- `OUT_CAP`, 1 to 65536. -/
  outCap : Nat
deriving DecidableEq, Repr

/-- The default parameters of 00_scope.md R6: both capacities 4096. Log entry 7. -/
def Params.standard : Params := ⟨4096, 4096⟩

namespace Config

/-- `BASE` divided by 0x40000. The spec gives `BASE` no default (00_scope.md R6, 93 U10), so it has no
value here either. UNSPECIFIED BY THE SPEC: log entry 4 (safe). -/
opaque baseIndex : Nat

/-- `BASE`, the host bus address of offset 0: any address aligned to 0x40000 (00_scope.md R6). -/
def base : Nat := baseIndex * 0x40000

/-- The unspecified byte that index `i` of IN holds after the `n`-th reset until it is written: one
unconstrained draw per byte and reset (10_state.md R35, 93 U1). Log entry 1 (safe). -/
opaque inDraw (n i : Nat) : Byte

/-- The unspecified byte that index `i` of OUT holds after the `n`-th reset until it is written
(10_state.md R35, 93 U2). Log entry 1 (safe). -/
opaque outDraw (n i : Nat) : Byte

/-- The byte that `LOADIN "text"` loads for a character with the code point `code`, where that is no ASCII code:
30_encoding.md R95 speaks of ASCII codes only. DESIGN CHOICE: log entry 14. -/
opaque nonAsciiByte (code : Nat) : Byte

/-- The value that LOADIN writes to IN_LEN for a string of `n` bytes, where `n` fits no 32-bit register:
30_encoding.md R94 and R95 give no such write. DESIGN CHOICE: log entry 15 (safe). -/
opaque oversizeLength (n : Nat) : Word

end Config

end Sys2Proof
end

