-- ==== Sys2Proof/Syntax.lean ====
section
/-! DEFINITION. The commands (30_encoding.md R81), the registers by name (10_state.md R21), the host's bus
accesses (20_memory.md R50), and the host-script notation (30_encoding.md R94, R95). -/

namespace Sys2Proof

/-- The 29 operations of 30_encoding.md R81, one constructor per row of the opcode table. A command word has
no operand fields (R80), so no constructor has an argument: every operand is in IN, IN_LEN or an ARG register. -/
inductive Instr where
  /-- CRC_CALC, 41_crc.md R111. -/
  | crcCalc
  /-- CRC_VERIFY, 41_crc.md R112. -/
  | crcVerify
  /-- CRC_APPEND, 41_crc.md R113. -/
  | crcAppend
  /-- CRC_VERIFY_APP, 41_crc.md R114. -/
  | crcVerifyApp
  /-- PAR_CALC, 42_parity.md R131. -/
  | parCalc
  /-- PAR_VERIFY, 42_parity.md R132. -/
  | parVerify
  /-- CLTU_ENC, 43_cltu.md R152. -/
  | cltuEnc
  /-- CLTU_DEC, 43_cltu.md R153. -/
  | cltuDec
  /-- CLTU_SIZE, 43_cltu.md R154. -/
  | cltuSize
  /-- CLTU_BLOCKS, 43_cltu.md R155. -/
  | cltuBlocks
  /-- SCR_RAND, 44_scrambler.md R181. -/
  | scrRand
  /-- SCR_RAND_IP, 44_scrambler.md R182. -/
  | scrRandIp
  /-- SCR_DERAND, 44_scrambler.md R183. -/
  | scrDerand
  /-- SCR_DERAND_IP, 44_scrambler.md R184. -/
  | scrDerandIp
  /-- SCR_SEQ, 44_scrambler.md R185. -/
  | scrSeq
  /-- FH_PARSE, 45_frame.md R201. -/
  | fhParse
  /-- FH_SCID, 45_frame.md R202. -/
  | fhScid
  /-- FH_VCID, 45_frame.md R203. -/
  | fhVcid
  /-- FH_COUNT, 45_frame.md R204. -/
  | fhCount
  /-- FH_VALID, 45_frame.md R205. -/
  | fhValid
  /-- FH_IS_CMD, 45_frame.md R206. -/
  | fhIsCmd
  /-- FH_IS_TM, 45_frame.md R207. -/
  | fhIsTm
  /-- FH_BUILD, 45_frame.md R208. -/
  | fhBuild
  /-- TM_BUILD, 45_frame.md R210. -/
  | tmBuild
  /-- TC_BUILD, 45_frame.md R211. -/
  | tcBuild
  /-- CLCW_ENC, 46_clcw.md R241. -/
  | clcwEnc
  /-- CLCW_ENC_FULL, 46_clcw.md R242. -/
  | clcwEncFull
  /-- CLCW_DEC, 46_clcw.md R243. -/
  | clcwDec
  /-- CLCW_NOMINAL, 46_clcw.md R244. -/
  | clcwNominal
deriving DecidableEq, Repr

/-- The registers of 10_state.md R21, by name. -/
inductive Reg where
  | cmd
  | status
  | errInfo
  | inLen
  | outLen
  | inCap
  | outCap
  | arg (i : Fin 16)
  | res (i : Fin 16)
deriving DecidableEq, Repr

/-- The two widths of a host bus access (20_memory.md R50). -/
inductive Width where
  | one
  | four
deriving DecidableEq, Repr

/-- One host bus access at an offset of the window: `MemRead(BASE + off, n)`, or `MemWrite(BASE + off, n, v)`
with `v` as wide as the access (20_memory.md R50). -/
inductive Access where
  | read (off : Offset) (w : Width)
  | writeByte (off : Offset) (b : Byte)
  | writeWord (off : Offset) (v : Word)
deriving DecidableEq, Repr

/-- What the outside can do to the block: one bus access of the host, or the platform's reset, which comes
between accesses (20_memory.md R60, 70_reset_and_hazards.md R300). -/
inductive HostEvent where
  | access (a : Access)
  | reset
deriving DecidableEq, Repr

/-- The two byte buffers (10_state.md R30, R31). -/
inductive Buffer where
  | input
  | output
deriving DecidableEq, Repr

/-- A statement of the host-script notation (30_encoding.md R94); each is one host bus access. -/
inductive Stmt where
  /-- `WR <reg>, <v>` -/
  | wr (r : Reg) (v : Word)
  /-- `RD <reg>` -/
  | rd (r : Reg)
  /-- `WRB IN[<i>], <b>` -/
  | wrb (i : Nat) (b : Byte)
  /-- `WRW IN[<i>], <v>`, `i` a multiple of 4 -/
  | wrw (i : Nat) (v : Word)
  /-- `RDB IN[<i>]` or `RDB OUT[<i>]` -/
  | rdb (b : Buffer) (i : Nat)
  /-- `RDW OUT[<i>]`, `i` a multiple of 4 -/
  | rdw (i : Nat)
  /-- `CMD <mnemonic>` -/
  | cmd (i : Instr)
deriving DecidableEq, Repr

/-- A pseudo-instruction of the host-script notation (30_encoding.md R95). -/
inductive Pseudo where
  /-- `LOADIN b0 b1 ...` -/
  | loadIn (bytes : List Byte)
  /-- `LOADIN "text"` -/
  | loadText (text : String)
  /-- `SETARG i, v` -/
  | setArg (i : Fin 16) (v : Word)
  /-- `MOVEOUT` -/
  | moveOut
  /-- `RUN <mnemonic>` -/
  | run (i : Instr)
  /-- `EXPECT <reg> = v` -/
  | expectReg (r : Reg) (v : Word)
  /-- `EXPECT <buffer>[i : i + |bytes|] = bytes` -/
  | expectBytes (b : Buffer) (i : Nat) (bytes : List Byte)
deriving DecidableEq, Repr

end Sys2Proof
end

