-- ==== Sys2Proof/WellFormed.lean ====
section
/-! DEFINITION. What the spec calls legal: command words (30_encoding.md R80 to R83), parameters (00_scope.md R6),
and host-script statements (30_encoding.md R94, 20_memory.md R52, R53). -/

namespace Sys2Proof

/-- A command word by its fields (30_encoding.md R80): RSV is zero, and FN is a function that family FAM has
(R82: families 1 to 6, with 4, 2, 4, 5, 10 and 4 functions in R81's order). -/
def commandWordWf (w : Word) : Bool :=
  let rsv := w.extractLsb' 8 24
  let fam := (w.extractLsb' 4 4).toNat
  let fn := (w.extractLsb' 0 4).toNat
  rsv == 0 && decide (fn < [0, 4, 2, 4, 5, 10, 4].getD fam 0)

/-- An instruction has no operand fields (30_encoding.md R80), so there is nothing in it to check. -/
def Instr.wf (_ : Instr) : Bool := true

/-- The legal parameter values (00_scope.md R6). -/
abbrev Params.wf (p : Params) : Prop :=
  (1 ≤ p.inCap ∧ p.inCap ≤ 65536) ∧ (1 ≤ p.outCap ∧ p.outCap ≤ 65536)

/-- The capacity of a buffer (10_state.md R30, R31). -/
def Params.cap (p : Params) : Buffer → Nat
  | .input => p.inCap
  | .output => p.outCap

/-- A host-script statement whose one access is legal (30_encoding.md R94 with 20_memory.md R53): its index lies
in the buffer, and a 4-byte statement's index is a multiple of 4 with all four bytes in the buffer. -/
def Stmt.wf (p : Params) : Stmt → Bool
  | .wr _ _ => true
  | .rd _ => true
  | .wrb i _ => decide (i < p.inCap)
  | .wrw i _ => decide (i % 4 = 0 ∧ i + 4 ≤ p.inCap)
  | .rdb b i => decide (i < p.cap b)
  | .rdw i => decide (i % 4 = 0 ∧ i + 4 ≤ p.outCap)
  | .cmd _ => true

/-- A pseudo-instruction whose statements are all well formed; a text is ASCII (30_encoding.md R95). -/
def Pseudo.wf (p : Params) : Pseudo → Bool
  | .loadIn bytes => decide (bytes.length ≤ p.inCap)
  | .loadText t => t.toList.all (fun c => decide (c.toNat < 128)) && decide (t.toList.length ≤ p.inCap)
  | .setArg _ _ => true
  | .moveOut => true
  | .run _ => true
  | .expectReg _ _ => true
  | .expectBytes b i bytes => decide (i + bytes.length ≤ p.cap b)

end Sys2Proof
end

