-- ==== Sys2Proof/Decode.lean ====
section
/-! DEFINITION. The command decoder and encoder (30_encoding.md R80 to R84). -/

namespace Sys2Proof

/-- Why a command word selects no operation: the three kinds of illegal encoding of 30_encoding.md R83. -/
inductive DecodeError where
  /-- `CMD[31:8]` is not zero. -/
  | reservedBits
  /-- FAM is 0x0 or 0x7 to 0xF (R82). -/
  | unassignedFamily
  /-- FAM holds operations, but none with this FN. -/
  | unassignedFunction
deriving DecidableEq, Repr

/-- The opcode map of 30_encoding.md R81: CMD value and operation, row by row. -/
def opcodeTable : List (Word × Instr) :=
  [(0x00000010, .crcCalc), (0x00000011, .crcVerify), (0x00000012, .crcAppend), (0x00000013, .crcVerifyApp),
   (0x00000020, .parCalc), (0x00000021, .parVerify),
   (0x00000030, .cltuEnc), (0x00000031, .cltuDec), (0x00000032, .cltuSize), (0x00000033, .cltuBlocks),
   (0x00000040, .scrRand), (0x00000041, .scrRandIp), (0x00000042, .scrDerand), (0x00000043, .scrDerandIp),
   (0x00000044, .scrSeq),
   (0x00000050, .fhParse), (0x00000051, .fhScid), (0x00000052, .fhVcid), (0x00000053, .fhCount),
   (0x00000054, .fhValid), (0x00000055, .fhIsCmd), (0x00000056, .fhIsTm), (0x00000057, .fhBuild),
   (0x00000058, .tmBuild), (0x00000059, .tcBuild),
   (0x00000060, .clcwEnc), (0x00000061, .clcwEncFull), (0x00000062, .clcwDec), (0x00000063, .clcwNominal)]

/-- The operation a command word selects, or why it selects none (30_encoding.md R81, R83). -/
def decodeWord (w : Word) : Except DecodeError Instr :=
  if w.extractLsb' 8 24 ≠ 0 then .error .reservedBits
  else
    match opcodeTable.lookup w with
    | some i => .ok i
    | none =>
      if 1 ≤ (w.extractLsb' 4 4).toNat ∧ (w.extractLsb' 4 4).toNat ≤ 6 then .error .unassignedFunction
      else .error .unassignedFamily

/-- The operation a command word selects, if it is legal. -/
def selectCommand (w : Word) : Option Instr :=
  match decodeWord w with
  | .ok i => some i
  | .error _ => none

/-- The 8-bit opcode `FAM:FN` of an operation (30_encoding.md R80, R81). -/
def Instr.opcode : Instr → Byte
  | .crcCalc => 0x10
  | .crcVerify => 0x11
  | .crcAppend => 0x12
  | .crcVerifyApp => 0x13
  | .parCalc => 0x20
  | .parVerify => 0x21
  | .cltuEnc => 0x30
  | .cltuDec => 0x31
  | .cltuSize => 0x32
  | .cltuBlocks => 0x33
  | .scrRand => 0x40
  | .scrRandIp => 0x41
  | .scrDerand => 0x42
  | .scrDerandIp => 0x43
  | .scrSeq => 0x44
  | .fhParse => 0x50
  | .fhScid => 0x51
  | .fhVcid => 0x52
  | .fhCount => 0x53
  | .fhValid => 0x54
  | .fhIsCmd => 0x55
  | .fhIsTm => 0x56
  | .fhBuild => 0x57
  | .tmBuild => 0x58
  | .tcBuild => 0x59
  | .clcwEnc => 0x60
  | .clcwEncFull => 0x61
  | .clcwDec => 0x62
  | .clcwNominal => 0x63

/-- The command word of an operation: RSV = 0 above its opcode (30_encoding.md R80). -/
def encode (i : Instr) : Word := i.opcode.setWidth 32

/-- The command word whose bits, numbered as spec/opcode_table.json numbers them, are the low `nbits` bits of `w`;
none if they do not fit one 32-bit word (30_encoding.md R84: every command is one 32-bit word). -/
def tableCommandWord (nbits w : Nat) : Option Word :=
  if w % 2 ^ nbits < 2 ^ 32 then some (BitVec.ofNat 32 (w % 2 ^ nbits)) else none

/-- The decoder, asked about a word of spec/opcode_table.json. -/
def decodeTableWord (nbits w : Nat) : Option Instr :=
  match tableCommandWord nbits w with
  | some cmd => selectCommand cmd
  | none => none

end Sys2Proof
end

