-- ==== Sys2Proof/Machine/State.lean ====
section
/-! DEFINITION. The state of the block as plain data (10_state.md), what the host sees of an access, and the
state after reset (10_state.md R34). -/

namespace Sys2Proof.Machine

/-- Why a host access is a bus error (20_memory.md R52, R53, R56; 60_exceptions.md R280). A bus error is a fault
of the host's access: the access completes with an error response and changes nothing in the block, so `step`
records the fault in `State.response` and answers a next state; it never ends the run with one. Which cause an
access with several reports is the model's choice (log entry 6); the host sees one error response. SAFE. -/
inductive Fault where
  /-- Raised by the bus: a 1-byte access to the register window (R52). Safe. -/
  | registerByteAccess
  /-- Raised by the bus: a 4-byte access to the register window at an offset that is no multiple of 4 (R52). Safe. -/
  | registerMisaligned
  /-- Raised by the bus: a 4-byte access to a reserved offset of the register window (R21, R52). Safe. -/
  | registerReserved
  /-- Raised by the bus: a 4-byte access to a buffer window at an offset that is no multiple of 4 (R53). Safe. -/
  | bufferMisaligned
  /-- Raised by the bus: a buffer access some byte of which lies at or above the capacity (R53). Safe. -/
  | bufferBeyondCapacity
  /-- Raised by the bus: any access to offsets 0x30000 to 0x3FFFF (R51, R56). Safe. -/
  | reservedRegion
deriving DecidableEq, Repr

/-- Why the model gives an instruction no meaning. No arm of `exec` answers it: every operation is modelled. -/
inductive Refusal where
  /-- Raised by `exec` for an operation without a meaning; there is none. Safe: the model would stop. -/
  | notModelled (mnemonic : String)
deriving DecidableEq, Repr

/-- What the host port last answered: the model's own record of what the host sees (log entry 5). -/
inductive Response where
  /-- No access since reset. -/
  | none
  /-- A 1-byte read completed with this byte. -/
  | byte (b : Byte)
  /-- A 4-byte read completed with this word. -/
  | word (v : Word)
  /-- A write completed (20_memory.md R55, R57). -/
  | written
  /-- The access was a bus error (20_memory.md R56). -/
  | busError (f : Fault)
deriving DecidableEq, Repr

/-- The content of a buffer: the bytes written since the last reset, as (index, byte) pairs with the indices
strictly rising. An unlisted index holds no written byte, and no entry says "not written", so equal contents are
equal data; what an unlisted byte reads as is `State.inByte` and `State.outByte`, a draw (10_state.md R35).
DESIGN CHOICE: log entry 2 (safe). -/
structure Memory where
  cells : List Host.Cell
deriving DecidableEq, Repr

/-- The whole machine. -/
structure State where
  /-- CMD, offset 0x000 (10_state.md R22). -/
  cmd : Word
  /-- STATUS, offset 0x004 (10_state.md R23). -/
  status : Word
  /-- ERRINFO, offset 0x008 (10_state.md R24). -/
  errInfo : Word
  /-- IN_LEN, offset 0x00C (10_state.md R25). -/
  inLen : Word
  /-- OUT_LEN, offset 0x010 (10_state.md R26). -/
  outLen : Word
  /-- ARG0 to ARG15, offsets 0x040 to 0x07C (10_state.md R28). -/
  arg : Vector Word 16
  /-- RES0 to RES15, offsets 0x080 to 0x0BC (10_state.md R29). -/
  res : Vector Word 16
  /-- IN, the input buffer (10_state.md R30). -/
  inBuf : Memory
  /-- OUT, the output buffer (10_state.md R31). -/
  outBuf : Memory
  /-- IN_CAP and OUT_CAP, offsets 0x014 and 0x018: constants of the build (10_state.md R27). -/
  params : Params
  /-- The model's own counter of resets, which selects the draws of unwritten bytes (log entry 1). -/
  epoch : Nat
  /-- The model's own queue of what the host and the platform do next, in the one total order of
  20_memory.md R60 (log entry 3). -/
  pending : List HostEvent
  /-- The model's own record of the answer to the last access (log entry 5). -/
  response : Response
deriving DecidableEq, Repr

/-- The state right after reset (10_state.md R34, 70_reset_and_hazards.md R300): every register zero, no buffer
byte written; the default parameters of 00_scope.md R6 (log entry 7); nothing asked by the host yet (log entry 3). -/
def State.reset : State where
  cmd := 0
  status := 0
  errInfo := 0
  inLen := 0
  outLen := 0
  arg := Vector.replicate 16 0
  res := Vector.replicate 16 0
  inBuf := ⟨[]⟩
  outBuf := ⟨[]⟩
  params := Params.standard
  epoch := 0
  pending := []
  response := .none

end Sys2Proof.Machine
end

