-- ==== Sys2Proof/Machine/Flags.lean ====
section
/-! DEFINITION. The only flags of the block (10_state.md R33): the fields of STATUS (R23), the error codes
(60_exceptions.md R271), and Boolean results. -/

namespace Sys2Proof.Machine

/-- The error codes a failed command can report (60_exceptions.md R271; NONE is the absence of an error). -/
inductive ErrCode where
  /-- The word is not in 30_encoding.md R81. -/
  | illegalOp
  /-- IN_LEN > IN_CAP. -/
  | inLenInvalid
  /-- An ARG operand outside its legal range. -/
  | outOfRange
  /-- IN_LEN below what the operation reads. -/
  | shortInput
  /-- The byte-string result is longer than OUT_CAP. -/
  | outOverflow
  /-- The unit does not begin EB 90. -/
  | cltuInvalidStart
  /-- The unit does not end in seven C5. -/
  | cltuInvalidTail
  /-- The bytes between the markers are no multiple of 8. -/
  | cltuBadLength
  /-- A code block's parity byte is wrong. -/
  | cltuBlockParity
deriving DecidableEq, Repr

/-- The value of ERRCODE for each code (60_exceptions.md R271). -/
def ErrCode.toByte : ErrCode → Byte
  | .illegalOp => 0x01
  | .inLenInvalid => 0x02
  | .outOfRange => 0x03
  | .shortInput => 0x04
  | .outOverflow => 0x05
  | .cltuInvalidStart => 0x10
  | .cltuInvalidTail => 0x11
  | .cltuBadLength => 0x12
  | .cltuBlockParity => 0x13

/-- STATUS after a command with opcode `op` succeeded: `(op << 16) | 0x00000001` (30_encoding.md R90). -/
def statusDone (op : Byte) : Word := (op.setWidth 32 <<< 16) ||| 0x00000001#32

/-- STATUS after a command with opcode byte `op` failed: `(op << 16) | (code << 8) | 0x00000002`
(30_encoding.md R90). -/
def statusFailed (op code : Byte) : Word :=
  (op.setWidth 32 <<< 16) ||| (code.setWidth 32 <<< 8) ||| 0x00000002#32

/-- STATUS.DONE, bit 0 (10_state.md R23). -/
def doneFlag (status : Word) : Bool := status.getLsbD 0

/-- STATUS.ERR, bit 1 (10_state.md R23). -/
def errFlag (status : Word) : Bool := status.getLsbD 1

/-- STATUS.ERRCODE, bits 15:8 (10_state.md R23). -/
def errCodeField (status : Word) : Byte := status.extractLsb' 8 8

/-- STATUS.LAST_OP, bits 23:16 (10_state.md R23). -/
def lastOpField (status : Word) : Byte := status.extractLsb' 16 8

/-- A Boolean result: 1 for true, 0 for false (10_state.md R33, 30_encoding.md R87). -/
def boolWord (b : Bool) : Word := if b then 1 else 0

end Sys2Proof.Machine
end

