-- ==== Sys2Proof/Machine/Ops.lean ====
section
/-! DEFINITION. The named operations over buffers and registers, the command cycle with its error exit
(30_encoding.md R90, 60_exceptions.md R270), and the reset event (70_reset_and_hazards.md R300). -/

namespace Sys2Proof.Machine

/-! Buffers -/

/-- The byte written at index `i` since the last reset, if one was. -/
def Memory.written (m : Memory) (i : Nat) : Option Byte := m.cells.lookup i

/-- The bytes of `bs` at consecutive indices from `i`. -/
def placeAt : Nat → List Byte → List Host.Cell
  | _, [] => []
  | i, b :: bs => (i, b) :: placeAt (i + 1) bs

/-- Write the byte string `bs` at index `i`, every other index keeping its content. -/
def Memory.write (m : Memory) (i : Nat) (bs : List Byte) : Memory :=
  ⟨m.cells.filter (fun c => decide (c.1 < i)) ++ placeAt i bs ++
    m.cells.filter (fun c => decide (i + bs.length ≤ c.1))⟩

/-- The canonical form: the indices strictly rise. -/
abbrev Memory.wf (m : Memory) : Prop := m.cells.Pairwise (fun a b => a.1 < b.1)

/-- Every written byte lies below the capacity `cap`. -/
abbrev Memory.below (m : Memory) (cap : Nat) : Prop := ∀ c ∈ m.cells, c.1 < cap

/-- `IN[i]`: the byte written there, or the draw of this reset (10_state.md R30, R35). -/
def State.inByte (s : State) (i : Nat) : Byte := (s.inBuf.written i).getD (Config.inDraw s.epoch i)

/-- `OUT[i]`: the byte written there, or the draw of this reset (10_state.md R31, R35). -/
def State.outByte (s : State) (i : Nat) : Byte := (s.outBuf.written i).getD (Config.outDraw s.epoch i)

/-- `IN[i : i + |bs|] <- bs`. -/
def State.storeIn (s : State) (i : Nat) (bs : List Byte) : State := { s with inBuf := s.inBuf.write i bs }

/-- `OUT[0 : |bs|] <- bs ; OUT_LEN <- |bs|` (10_state.md R31, 30_encoding.md R87). -/
def State.storeOut (s : State) (bs : List Byte) : State :=
  { s with outBuf := s.outBuf.write 0 bs, outLen := BitVec.ofNat 32 bs.length }

/-! Registers -/

/-- `ARG[i]` (00_scope.md R11). -/
def State.getArg (s : State) (i : Fin 16) : Word := s.arg[i]

/-- `RES[i]`. -/
def State.getRes (s : State) (i : Fin 16) : Word := s.res[i]

/-- A host write of ARG`i` (10_state.md R28). -/
def State.setArg (s : State) (i : Fin 16) (v : Word) : State := { s with arg := s.arg.set i v }

/-- The result writes `RES[k] <- v` named in the list, every other RES register unchanged (10_state.md R29). -/
def State.setResults (s : State) (l : List (Fin 16 × Word)) : State :=
  { s with res := Vector.ofFn (fun k => (l.lookup k).getD (s.getRes k)) }

/-! The command cycle -/

/-- A command error: its code and its information value (60_exceptions.md R270). -/
structure CmdError where
  code : ErrCode
  info : Word
deriving DecidableEq, Repr

/-- The pending writes a body computes (30_encoding.md R90): RES registers, the byte string for OUT (with
OUT_LEN), and the byte string for IN from index 0. -/
structure Writes where
  results : List (Fin 16 × Word) := []
  output : Option (List Byte) := none
  input : Option (List Byte) := none
deriving DecidableEq, Repr

/-- Commit a body's pending writes; they touch distinct locations (30_encoding.md R90). -/
def State.commitWrites (s : State) (w : Writes) : State :=
  let s := s.setResults w.results
  let s := match w.output with
    | some bs => s.storeOut bs
    | none => s
  match w.input with
  | some bs => s.storeIn 0 bs
  | none => s

/-- ERRINFO and STATUS of a finished command, each written as a whole (10_state.md R23, R24). -/
def State.report (s : State) (status errInfo : Word) : State := { s with status := status, errInfo := errInfo }

/-- TAKING A COMMAND ERROR, the block's one exception (60_exceptions.md R270, R274): the pending writes are
discarded, ERRINFO holds the information value, STATUS the opcode byte, the code and ERR; nothing else changes,
no control is transferred, and the block is at once ready for the next command. There is no return from it (R275). -/
def State.takeError (s : State) (op : Byte) (e : CmdError) : State :=
  s.report (statusFailed op e.code.toByte) e.info

/-- The successful end of a command: commit, ERRINFO 0, STATUS with DONE (30_encoding.md R90). -/
def State.complete (s : State) (op : Byte) (w : Writes) : State :=
  (s.commitWrites w).report (statusDone op) 0

/-- The command cycle of 30_encoding.md R90 for a legal command, whose body has run: commit or fail. The write of CMD
itself is the bus's (`writeReg`); LAST_OP is the opcode of the operation (DEDUCED: log entry 8, safe). -/
def runCommand (i : Instr) (body : Except CmdError Writes) (s : State) : Host.Outcome State Fault Refusal :=
  match body with
  | .ok w => .next (s.complete i.opcode w)
  | .error e => .next (s.takeError i.opcode e)

/-- The command cycle for a word that is no command: ILLEGAL_OP with the word itself (30_encoding.md R83, R90). -/
def illegalCommand (w : Word) (s : State) : State := s.takeError (w.extractLsb' 0 8) ⟨.illegalOp, w⟩

/-! The host port -/

/-- The answer to the host's access. -/
def State.respond (s : State) (r : Response) : State := { s with response := r }

/-- The host's queue after its first event is taken. -/
def State.withPending (s : State) (rest : List HostEvent) : State := { s with pending := rest }

/-- The platform's reset (70_reset_and_hazards.md R300): every register zero, every byte of IN and OUT a new draw,
IN_CAP and OUT_CAP as they always are. What the host asks next is no state of the block and stays; the record of the
last answer is cleared (DESIGN CHOICE: log entry 9, safe). -/
def State.applyReset (s : State) : State :=
  { cmd := 0, status := 0, errInfo := 0, inLen := 0, outLen := 0,
    arg := Vector.replicate 16 0, res := Vector.replicate 16 0,
    inBuf := ⟨[]⟩, outBuf := ⟨[]⟩,
    params := s.params, epoch := s.epoch + 1, pending := s.pending, response := .none }

end Sys2Proof.Machine
end

