-- ==== Sys2Proof/Machine/Operands.lean ====
section
/-! DEFINITION. How an operation finds its operands and checks them (30_encoding.md R85 to R89), and the
big-endian helpers of 00_scope.md R9. -/

namespace Sys2Proof.Machine

/-! Byte order (00_scope.md R9) -/

/-- `BE16(x, y)`. -/
def be16 (x y : Byte) : Half := (x.setWidth 16 <<< 8) ||| y.setWidth 16

/-- `BE32(a, b, c, d)`. -/
def be32 (a b c d : Byte) : Word :=
  (a.setWidth 32 <<< 24) ||| (b.setWidth 32 <<< 16) ||| (c.setWidth 32 <<< 8) ||| d.setWidth 32

/-- `bytes16(v) = [v[15:8], v[7:0]]`. -/
def bytes16 (v : Half) : List Byte := [v.extractLsb' 8 8, v.extractLsb' 0 8]

/-- `bytes32(v) = [v[31:24], v[23:16], v[15:8], v[7:0]]`. -/
def bytes32 (v : Word) : List Byte :=
  [v.extractLsb' 24 8, v.extractLsb' 16 8, v.extractLsb' 8 8, v.extractLsb' 0 8]

/-- `ceil_div(a, b)` in unbounded integers (00_scope.md R10). -/
def ceilDiv (a b : Nat) : Nat := (a + b - 1) / b

/-- `x[i]` of a byte string; read only where the operation has checked that the string is long enough. -/
def byteAt (x : List Byte) (i : Nat) : Byte := x.getD i 0

/-! Operand sources (30_encoding.md R85) -/

/-- `x = IN[0 : IN_LEN]`. -/
def inputString (s : State) : List Byte := (List.range s.inLen.toNat).map s.inByte

/-- `ARG[i]` as an unsigned integer. -/
def argNat (s : State) (i : Fin 16) : Nat := (s.getArg i).toNat

/-! Checks, each raising the error of 60_exceptions.md R271 it names -/

/-- `if not c: raise CmdError(code, info)`. -/
def require (c : Prop) [Decidable c] (code : ErrCode) (info : Word) : Except CmdError Unit :=
  if c then .ok () else .error ⟨code, info⟩

/-- `IN_LEN <= IN_CAP`, else IN_LEN_INVALID with ERRINFO = IN_LEN (30_encoding.md R88). -/
def requireInput (s : State) : Except CmdError Unit :=
  require (s.inLen.toNat ≤ s.params.inCap) .inLenInvalid s.inLen

/-- ARG`i` at most `max`, else OUT_OF_RANGE with ERRINFO = i (30_encoding.md R86). -/
def requireArg (s : State) (i : Fin 16) (max : Nat) : Except CmdError Unit :=
  require (argNat s i ≤ max) .outOfRange (BitVec.ofNat 32 i.val)

/-- Several operands in the order of the list; the first that is out of range raises (30_encoding.md R86). -/
def requireArgs (s : State) : List (Fin 16 × Nat) → Except CmdError Unit
  | [] => .ok ()
  | (i, max) :: rest => do
    requireArg s i max
    requireArgs s rest

/-- At least `n` input bytes, else SHORT_INPUT with ERRINFO = n (60_exceptions.md R271). -/
def requireLength (s : State) (n : Nat) : Except CmdError Unit :=
  require (n ≤ s.inLen.toNat) .shortInput (BitVec.ofNat 32 n)

/-- Room for `n` result bytes in OUT, else OUT_OVERFLOW with ERRINFO = n (30_encoding.md R87). -/
def requireRoom (s : State) (n : Nat) : Except CmdError Unit :=
  require (n ≤ s.params.outCap) .outOverflow (BitVec.ofNat 32 n)

end Sys2Proof.Machine
end

