-- ==== Sys2Proof/Machine/Bus.lean ====
section
/-! DEFINITION. The host bus interface (20_memory.md): the address map, legal accesses, bus errors, and what a
legal access reads or writes. -/

namespace Sys2Proof.Machine

/-! The window in the host's address map -/

/-- The offset of a host bus address in the block's window `BASE + 0 .. BASE + 0x3FFFF`, if it lies there
(20_memory.md R50, R51). -/
def windowOffset (addr : Nat) : Option Offset :=
  if Config.base ≤ addr ∧ addr < Config.base + 0x40000 then some (BitVec.ofNat 18 (addr - Config.base)) else none

/-- The host bus address of an offset (20_memory.md R50). -/
def windowAddress (off : Offset) : Nat := Config.base + off.toNat

/-! The register window (10_state.md R21) -/

/-- The offset of a register. -/
def regOffset : Reg → Nat
  | .cmd => 0x000
  | .status => 0x004
  | .errInfo => 0x008
  | .inLen => 0x00C
  | .outLen => 0x010
  | .inCap => 0x014
  | .outCap => 0x018
  | .arg i => 0x040 + 4 * i.val
  | .res i => 0x080 + 4 * i.val

/-- The register at an offset that is a multiple of 4, if one is there: 0x01C to 0x03C and 0x0C0 to 0x0FFFF are
reserved. -/
def regAt (off : Nat) : Option Reg :=
  match off / 4 with
  | 0 => some .cmd
  | 1 => some .status
  | 2 => some .errInfo
  | 3 => some .inLen
  | 4 => some .outLen
  | 5 => some .inCap
  | 6 => some .outCap
  | k =>
    if h : 16 ≤ k ∧ k < 32 then some (.arg ⟨k - 16, by omega⟩)
    else if h : 32 ≤ k ∧ k < 48 then some (.res ⟨k - 32, by omega⟩)
    else none

/-- What a host read of a register returns (10_state.md R22 to R29). -/
def readReg (s : State) : Reg → Word
  | .cmd => s.cmd
  | .status => s.status
  | .errInfo => s.errInfo
  | .inLen => s.inLen
  | .outLen => s.outLen
  | .inCap => BitVec.ofNat 32 s.params.inCap
  | .outCap => BitVec.ofNat 32 s.params.outCap
  | .arg i => s.getArg i
  | .res i => s.getRes i

/-- What a host write of a register stores: CMD, IN_LEN and ARG keep the value; a write to a read-only register
changes nothing (20_memory.md R55). The command that a write to CMD starts is run by `step`. -/
def writeReg (s : State) (r : Reg) (v : Word) : State :=
  match r with
  | .cmd => { s with cmd := v }
  | .inLen => { s with inLen := v }
  | .arg i => s.setArg i v
  | .status => s
  | .errInfo => s
  | .outLen => s
  | .inCap => s
  | .outCap => s
  | .res _ => s

/-! Where an access goes -/

/-- The number of bytes of an access. -/
def widthBytes : Width → Nat
  | .one => 1
  | .four => 4

/-- What a legal access reaches: a register, or bytes of a buffer from an index. -/
inductive Target where
  | reg (r : Reg)
  | buffer (b : Buffer) (i : Nat)
deriving DecidableEq, Repr

/-- A buffer access (20_memory.md R53): aligned to its width, all its bytes below the capacity. -/
def bufferTarget (p : Params) (w : Width) (b : Buffer) (i : Nat) : Except Fault Target :=
  if i % widthBytes w ≠ 0 then .error .bufferMisaligned
  else if p.cap b < i + widthBytes w then .error .bufferBeyondCapacity
  else .ok (.buffer b i)

/-- A register-window access (20_memory.md R52): four bytes, aligned, at a register. -/
def registerTarget (w : Width) (off : Nat) : Except Fault Target :=
  match w with
  | .one => .error .registerByteAccess
  | .four =>
    if off % 4 ≠ 0 then .error .registerMisaligned
    else
      match regAt off with
      | some r => .ok (.reg r)
      | none => .error .registerReserved

/-- The address map of 20_memory.md R51: what an access of width `w` at offset `off` reaches, or why it is a bus
error (R56). -/
def target (p : Params) (w : Width) (off : Offset) : Except Fault Target :=
  let o := off.toNat
  if o < 0x10000 then registerTarget w o
  else if o < 0x20000 then bufferTarget p w .input (o - 0x10000)
  else if o < 0x30000 then bufferTarget p w .output (o - 0x20000)
  else .error .reservedRegion

/-! Legal accesses -/

/-- `IN[i]` or `OUT[i]`. -/
def bufferByte (s : State) (b : Buffer) (i : Nat) : Byte :=
  match b with
  | .input => s.inByte i
  | .output => s.outByte i

/-- What a legal read answers; four buffer bytes are big-endian (20_memory.md R54). -/
def readTarget (s : State) (w : Width) : Target → Response
  | .reg r => .word (readReg s r)
  | .buffer b i =>
    match w with
    | .one => .byte (bufferByte s b i)
    | .four => .word (be32 (bufferByte s b i) (bufferByte s b (i + 1)) (bufferByte s b (i + 2)) (bufferByte s b (i + 3)))

/-- A legal write to a buffer window: IN takes the bytes, OUT ignores them (20_memory.md R54, R55). -/
def writeBuffer (s : State) (b : Buffer) (i : Nat) (bs : List Byte) : State :=
  match b with
  | .input => s.storeIn i bs
  | .output => s

/-- The data lines of a read as the host sees them: the value 0 with a bus error (20_memory.md R56). -/
def readData : Response → Word
  | .byte b => b.setWidth 32
  | .word v => v
  | .written => 0
  | .busError _ => 0
  | .none => 0

/-- One host access (20_memory.md R50 to R57): the state after it, and the command word to run when it was a legal
write to CMD. A bus error changes nothing but the answer to the host (R56, 60_exceptions.md R280; DEDUCED: log
entry 5). -/
def busAccess (s : State) : Access → State × Option Word
  | .read off w =>
    match target s.params w off with
    | .error f => (s.respond (.busError f), none)
    | .ok t => (s.respond (readTarget s w t), none)
  | .writeByte off b =>
    match target s.params .one off with
    | .error f => (s.respond (.busError f), none)
    | .ok (.reg r) => ((writeReg s r (b.setWidth 32)).respond .written, none)
    | .ok (.buffer buf i) => ((writeBuffer s buf i [b]).respond .written, none)
  | .writeWord off v =>
    match target s.params .four off with
    | .error f => (s.respond (.busError f), none)
    | .ok (.reg r) => ((writeReg s r v).respond .written, if r = .cmd then some v else none)
    | .ok (.buffer buf i) => ((writeBuffer s buf i (bytes32 v)).respond .written, none)

/-- The host asks for an access at a host bus address: one inside the window joins the block's queue; one outside
does not reach the block (20_memory.md R51). -/
def hostRead (s : State) (addr : Nat) (w : Width) : State :=
  match windowOffset addr with
  | some off => s.withPending (s.pending ++ [.access (.read off w)])
  | none => s

/-- `MemWrite(addr, 1, b)`. -/
def hostWriteByte (s : State) (addr : Nat) (b : Byte) : State :=
  match windowOffset addr with
  | some off => s.withPending (s.pending ++ [.access (.writeByte off b)])
  | none => s

/-- `MemWrite(addr, 4, v)`. -/
def hostWriteWord (s : State) (addr : Nat) (v : Word) : State :=
  match windowOffset addr with
  | some off => s.withPending (s.pending ++ [.access (.writeWord off v)])
  | none => s

/-- The host's write of a command word to CMD, as the next thing the block sees. -/
def commandEvent (w : Word) : HostEvent := .access (.writeWord 0 w)

end Sys2Proof.Machine
end

