-- ==== Sys2Proof/Machine/Clcw.lean ====
section
/-! DEFINITION. The CLCW family (46_clcw.md). -/

namespace Sys2Proof.Machine

/-- The fields of 46_clcw.md R240 in the order of their index k: lowest bit and width. -/
def clcwFields : List (Nat × Nat) :=
  [(31, 1), (29, 2), (26, 3), (24, 2), (18, 6), (15, 1), (14, 1), (13, 1), (12, 1), (11, 1), (9, 2), (0, 8)]

/-- `field(w, k)` as a 32-bit value, the field given by its lowest bit and width (46_clcw.md R245). -/
def clcwField (w : Word) (f : Nat × Nat) : Word := (w.extractLsb' f.1 f.2).setWidth 32

/-- `clcw_pack(f)`: each field shifted to its lowest bit; the spare bits are 0 (46_clcw.md R245). -/
def clcwPack (values : List Word) : Word :=
  (List.zipWith (fun (v : Word) (f : Nat × Nat) => v <<< f.1) values clcwFields).foldl (· ||| ·) 0

/-- `nominal(w)`: the status field and all five flags are 0 (46_clcw.md R245, 90_conflicts.md C2). -/
def clcwNominal (w : Word) : Bool :=
  w.extractLsb' 26 3 == 0 && !w.getLsbD 15 && !w.getLsbD 14 && !w.getLsbD 13 && !w.getLsbD 12 && !w.getLsbD 11

/-- ARG0 to ARG11 in order (46_clcw.md R242). -/
def clcwArgs : List (Fin 16) := [0, 1, 2, 3, 4, 5, 6, 7, 8, 9, 10, 11]

/-- The body of CLCW_ENC (46_clcw.md R241). -/
def clcwEncBody (s : State) : Except CmdError Writes := do
  requireArgs s [(0, 63), (1, 255)]
  return { results := [(0, (s.getArg 0 <<< 18) ||| s.getArg 1)] }

/-- The body of CLCW_ENC_FULL (46_clcw.md R242): each field at most what its width holds. -/
def clcwEncFullBody (s : State) : Except CmdError Writes := do
  requireArgs s (List.zipWith (fun k (f : Nat × Nat) => (k, 2 ^ f.2 - 1)) clcwArgs clcwFields)
  return { results := [(0, clcwPack (clcwArgs.map s.getArg))] }

/-- The body of CLCW_DEC (46_clcw.md R243). -/
def clcwDecBody (s : State) : Except CmdError Writes :=
  return { results := List.zipWith (fun k f => (k, clcwField (s.getArg 0) f)) clcwArgs clcwFields
    ++ [(12, boolWord (clcwNominal (s.getArg 0)))] }

/-- The body of CLCW_NOMINAL (46_clcw.md R244). -/
def clcwNominalBody (s : State) : Except CmdError Writes :=
  return { results := [(0, boolWord (clcwNominal (s.getArg 0)))] }

/-- CLCW_ENC, 46_clcw.md R241. -/
def execClcwEnc (s : State) : Host.Outcome State Fault Refusal := runCommand .clcwEnc (clcwEncBody s) s

/-- CLCW_ENC_FULL, 46_clcw.md R242. -/
def execClcwEncFull (s : State) : Host.Outcome State Fault Refusal := runCommand .clcwEncFull (clcwEncFullBody s) s

/-- CLCW_DEC, 46_clcw.md R243. -/
def execClcwDec (s : State) : Host.Outcome State Fault Refusal := runCommand .clcwDec (clcwDecBody s) s

/-- CLCW_NOMINAL, 46_clcw.md R244. -/
def execClcwNominal (s : State) : Host.Outcome State Fault Refusal := runCommand .clcwNominal (clcwNominalBody s) s

end Sys2Proof.Machine
end

