-- ==== Sys2Proof/Machine/Parity.lean ====
section
/-! DEFINITION. The block parity family (42_parity.md): the XOR/rotate checksum, not BCH(63,56) (00_scope.md R5). -/

namespace Sys2Proof.Machine

/-- PAR_INIT (00_scope.md R6). -/
def parInit : Byte := 0x00

/-- `rotl8(x)`: one-bit left rotation (00_scope.md R10). -/
def rotl8 (x : Byte) : Byte := (x <<< 1) ||| (x >>> 7)

/-- `parity(d)`: XOR each byte in, then rotate (42_parity.md R130). -/
def parity (d : List Byte) : Byte := d.foldl (fun a b => rotl8 (a ^^^ b)) parInit

/-- The body of PAR_CALC (42_parity.md R131). -/
def parCalcBody (s : State) : Except CmdError Writes := do
  requireInput s
  return { results := [(0, (parity (inputString s)).setWidth 32)] }

/-- The body of PAR_VERIFY (42_parity.md R132). -/
def parVerifyBody (s : State) : Except CmdError Writes := do
  requireInput s
  requireArg s 0 65535
  let d := argNat s 0
  requireLength s (d + 1)
  let p := parity ((inputString s).take d)
  return { results := [(0, p.setWidth 32), (1, boolWord (byteAt (inputString s) d == p))] }

/-- PAR_CALC, 42_parity.md R131. -/
def execParCalc (s : State) : Host.Outcome State Fault Refusal := runCommand .parCalc (parCalcBody s) s

/-- PAR_VERIFY, 42_parity.md R132. -/
def execParVerify (s : State) : Host.Outcome State Fault Refusal := runCommand .parVerify (parVerifyBody s) s

end Sys2Proof.Machine
end

