-- ==== Sys2Proof/Machine/Cltu.lean ====
section
/-! DEFINITION. The CLTU family (43_cltu.md): 7-byte tail and 8-bit parity, as the source has them (00_scope.md R5). -/

namespace Sys2Proof.Machine

/-- CLTU_START (00_scope.md R6). -/
def cltuStart : List Byte := [0xEB, 0x90]

/-- CLTU_TAIL (00_scope.md R6). -/
def cltuTail : List Byte := List.replicate 7 0xC5

/-- CLTU_FILL (00_scope.md R6). -/
def cltuFill : Byte := 0x55

/-- The data bytes of code block `i` of payload `p`, filled up to 7 (43_cltu.md R151). -/
def blockData (p : List Byte) (i : Nat) : List Byte :=
  let d := (p.drop (7 * i)).take 7
  d ++ List.replicate (7 - d.length) cltuFill

/-- A code block: 7 data bytes and their parity (43_cltu.md R150). -/
def codeBlock (d : List Byte) : List Byte := d ++ [parity d]

/-- `cltu_encode(p)` (43_cltu.md R151). -/
def cltuEncode (p : List Byte) : List Byte :=
  cltuStart ++ (List.range (ceilDiv p.length 7)).flatMap (fun i => codeBlock (blockData p i)) ++ cltuTail

/-- The code block `i` of a received unit: `b[2 + 8*i : 2 + 8*i + 8]` (43_cltu.md R153). -/
def receivedBlock (b : List Byte) (i : Nat) : List Byte := (b.drop (2 + 8 * i)).take 8

/-- Whether a received block's last byte is the parity of its first 7 (43_cltu.md R153). -/
def blockParityOk (blk : List Byte) : Bool := parity (blk.take 7) == byteAt blk 7

/-- The data bytes of `n` received blocks in order, or the first failing block (43_cltu.md R153). -/
def decodeBlocks (b : List Byte) (n : Nat) : Except CmdError (List Byte) :=
  match (List.range n).find? (fun i => !blockParityOk (receivedBlock b i)) with
  | some i => .error ⟨.cltuBlockParity, BitVec.ofNat 32 i⟩
  | none => .ok ((List.range n).flatMap (fun i => (receivedBlock b i).take 7))

/-- Drop up to `k` leading fill bytes. -/
def dropFill : Nat → List Byte → List Byte
  | 0, l => l
  | _ + 1, [] => []
  | k + 1, c :: l => if c = cltuFill then dropFill k l else c :: l

/-- `while |data| > E and the last byte is 0x55: drop the last byte` (43_cltu.md R153). -/
def stripFill (e : Nat) (data : List Byte) : List Byte :=
  (dropFill (data.length - e) data.reverse).reverse

/-- The payload and the block count of the unit `b`, with the expected length `e`, or the first wire-data error
in the order of 43_cltu.md R153. -/
def cltuDecode (b : List Byte) (e : Nat) : Except CmdError (List Byte × Nat) := do
  let n := b.length
  require (b.take 2 = cltuStart) .cltuInvalidStart 0
  require (9 ≤ n ∧ b.drop (n - 7) = cltuTail) .cltuInvalidTail 0
  require ((n - 9) % 8 = 0) .cltuBadLength (BitVec.ofNat 32 (n - 9))
  let data ← decodeBlocks b ((n - 9) / 8)
  return (stripFill e data, (n - 9) / 8)

/-- The body of CLTU_ENC (43_cltu.md R152). -/
def cltuEncBody (s : State) : Except CmdError Writes := do
  requireInput s
  let p := inputString s
  let r := cltuEncode p
  requireRoom s r.length
  return { results := [(0, BitVec.ofNat 32 (ceilDiv p.length 7))], output := some r }

/-- The body of CLTU_DEC (43_cltu.md R153); ARG0 is the expected payload length. -/
def cltuDecBody (s : State) : Except CmdError Writes := do
  requireInput s
  let (data, n) ← cltuDecode (inputString s) (argNat s 0)
  requireRoom s data.length
  return { results := [(0, BitVec.ofNat 32 n)], output := some data }

/-- The body of CLTU_SIZE (43_cltu.md R154). -/
def cltuSizeBody (s : State) : Except CmdError Writes := do
  requireArg s 0 0x00FFFFFF
  return { results := [(0, BitVec.ofNat 32 (2 + 8 * ceilDiv (argNat s 0) 7 + 7))] }

/-- The body of CLTU_BLOCKS (43_cltu.md R155). -/
def cltuBlocksBody (s : State) : Except CmdError Writes :=
  return { results := [(0, BitVec.ofNat 32 (ceilDiv (argNat s 0) 7))] }

/-- CLTU_ENC, 43_cltu.md R152. -/
def execCltuEnc (s : State) : Host.Outcome State Fault Refusal := runCommand .cltuEnc (cltuEncBody s) s

/-- CLTU_DEC, 43_cltu.md R153. -/
def execCltuDec (s : State) : Host.Outcome State Fault Refusal := runCommand .cltuDec (cltuDecBody s) s

/-- CLTU_SIZE, 43_cltu.md R154. -/
def execCltuSize (s : State) : Host.Outcome State Fault Refusal := runCommand .cltuSize (cltuSizeBody s) s

/-- CLTU_BLOCKS, 43_cltu.md R155. -/
def execCltuBlocks (s : State) : Host.Outcome State Fault Refusal := runCommand .cltuBlocks (cltuBlocksBody s) s

end Sys2Proof.Machine
end

