-- ==== Sys2Proof/Machine/Crc.lean ====
section
/-! DEFINITION. The CRC-16 family (41_crc.md). -/

namespace Sys2Proof.Machine

/-- CRC_POLY (00_scope.md R6). -/
def crcPoly : Half := 0x1021

/-- CRC_INIT (00_scope.md R6). -/
def crcInit : Half := 0xFFFF

/-- One bit of 41_crc.md R110: shift left, and the polynomial where bit 15 was set. -/
def crcBit (c : Half) : Half := if c.getLsbD 15 then (c <<< 1) ^^^ crcPoly else c <<< 1

/-- `n` bits of 41_crc.md R110. -/
def crcBits : Nat → Half → Half
  | 0, c => c
  | n + 1, c => crcBits n (crcBit c)

/-- One byte of 41_crc.md R110: it enters at the top, then eight bits. -/
def crcByte (c : Half) (b : Byte) : Half := crcBits 8 (c ^^^ (b.setWidth 16 <<< 8))

/-- `crc16(x)`: bytes in index order, no final XOR, no reflection (41_crc.md R110). -/
def crc16 (x : List Byte) : Half := x.foldl crcByte crcInit

/-- The body of CRC_CALC (41_crc.md R111). -/
def crcCalcBody (s : State) : Except CmdError Writes := do
  requireInput s
  return { results := [(0, (crc16 (inputString s)).setWidth 32)] }

/-- The body of CRC_VERIFY (41_crc.md R112). -/
def crcVerifyBody (s : State) : Except CmdError Writes := do
  requireInput s
  requireArg s 0 0xFFFF
  let c := (crc16 (inputString s)).setWidth 32
  return { results := [(0, c), (1, boolWord (c == s.getArg 0))] }

/-- The body of CRC_APPEND (41_crc.md R113). -/
def crcAppendBody (s : State) : Except CmdError Writes := do
  requireInput s
  requireRoom s (s.inLen.toNat + 2)
  let c := crc16 (inputString s)
  return { results := [(0, c.setWidth 32)], output := some (inputString s ++ bytes16 c) }

/-- The body of CRC_VERIFY_APP (41_crc.md R114). -/
def crcVerifyAppBody (s : State) : Except CmdError Writes := do
  requireInput s
  let x := inputString s
  let n := s.inLen.toNat
  if n < 2 then
    return { results := [(0, 0), (1, 0)] }
  else
    let c := crc16 (x.take (n - 2))
    return { results := [(0, c.setWidth 32), (1, boolWord (c == be16 (byteAt x (n - 2)) (byteAt x (n - 1))))] }

/-- CRC_CALC, 41_crc.md R111. -/
def execCrcCalc (s : State) : Host.Outcome State Fault Refusal := runCommand .crcCalc (crcCalcBody s) s

/-- CRC_VERIFY, 41_crc.md R112. -/
def execCrcVerify (s : State) : Host.Outcome State Fault Refusal := runCommand .crcVerify (crcVerifyBody s) s

/-- CRC_APPEND, 41_crc.md R113. -/
def execCrcAppend (s : State) : Host.Outcome State Fault Refusal := runCommand .crcAppend (crcAppendBody s) s

/-- CRC_VERIFY_APP, 41_crc.md R114. -/
def execCrcVerifyApp (s : State) : Host.Outcome State Fault Refusal := runCommand .crcVerifyApp (crcVerifyAppBody s) s

end Sys2Proof.Machine
end

