-- ==== Sys2Proof/Machine/Frame.lean ====
section
/-! DEFINITION. The frame header codec and the transfer frame builders (45_frame.md). -/

namespace Sys2Proof.Machine

/-- DEFAULT_FRAME_SIZE (00_scope.md R6). -/
def defaultFrameSize : Nat := 1115

/-! Header functions (45_frame.md R209) -/

/-- `hdr(scid, vcid, count, dfs, ocf)`: version is always 0. -/
def header (scid vcid count dfs ocf : Word) : List Byte :=
  let w0 : Half := (0#16 <<< 14) ||| (scid.setWidth 16 <<< 4) ||| (vcid.setWidth 16 <<< 1) ||| ocf.setWidth 16
  bytes16 w0 ++ bytes16 (count.setWidth 16) ++ bytes16 (dfs.setWidth 16)

/-- `word0 = BE16(h[0], h[1])` (45_frame.md R200). -/
def headerWord0 (h : List Byte) : Half := be16 (byteAt h 0) (byteAt h 1)

/-- `version(h)`, word0[15:14]. -/
def headerVersion (h : List Byte) : Word := ((headerWord0 h).extractLsb' 14 2).setWidth 32

/-- `scid(h)`, word0[13:4]. -/
def headerScid (h : List Byte) : Word := ((headerWord0 h).extractLsb' 4 10).setWidth 32

/-- `vcid(h)`, word0[3:1]. -/
def headerVcid (h : List Byte) : Word := ((headerWord0 h).extractLsb' 1 3).setWidth 32

/-- `ocf(h)`, word0[0]. -/
def headerOcf (h : List Byte) : Word := ((headerWord0 h).extractLsb' 0 1).setWidth 32

/-- `mc(h) = h[2]`. -/
def headerMc (h : List Byte) : Word := (byteAt h 2).setWidth 32

/-- `vc(h) = h[3]`. -/
def headerVc (h : List Byte) : Word := (byteAt h 3).setWidth 32

/-- `dfs(h) = BE16(h[4], h[5])`. -/
def headerDfs (h : List Byte) : Word := (be16 (byteAt h 4) (byteAt h 5)).setWidth 32

/-- `count(h) = BE16(h[2], h[3])`. -/
def headerCount (h : List Byte) : Word := (be16 (byteAt h 2) (byteAt h 3)).setWidth 32

/-- `dfs(h)[15]`: 1 means command (45_frame.md R206). -/
def headerIsCommand (h : List Byte) : Word := boolWord ((headerDfs h).getLsbD 15)

/-- `1 - dfs(h)[15]`: 1 means telemetry (45_frame.md R207). -/
def headerIsTelemetry (h : List Byte) : Word := 1 - headerIsCommand h

/-! Frames (45_frame.md R212) -/

/-- The frame size S: ARG6, where 0 selects the default (45_frame.md R210, R211). -/
def frameSize (s : State) : Nat := if argNat s 6 = 0 then defaultFrameSize else argNat s 6

/-- A frame before its FECF: header, the payload left-justified in `d` data bytes (zero-padded or truncated),
and the OCF slot (45_frame.md R210). -/
def frameBody (head x : List Byte) (d : Nat) (ocf : List Byte) : List Byte :=
  let m := min x.length d
  head ++ x.take m ++ List.replicate (d - m) 0x00 ++ ocf

/-- A byte string followed by its CRC, big-endian (45_frame.md R212). -/
def withFecf (f : List Byte) : List Byte := f ++ bytes16 (crc16 f)

/-! Bodies -/

/-- The body of FH_PARSE (45_frame.md R201). -/
def fhParseBody (s : State) : Except CmdError Writes := do
  requireInput s
  requireLength s 6
  let h := inputString s
  return { results :=
    [(0, headerVersion h), (1, headerScid h), (2, headerVcid h), (3, headerOcf h), (4, headerMc h),
     (5, headerVc h), (6, headerDfs h), (7, headerCount h), (8, headerIsCommand h), (9, headerIsTelemetry h)] }

/-- The body of FH_SCID (45_frame.md R202). -/
def fhScidBody (s : State) : Except CmdError Writes := do
  requireInput s
  requireLength s 2
  return { results := [(0, headerScid (inputString s))] }

/-- The body of FH_VCID (45_frame.md R203). -/
def fhVcidBody (s : State) : Except CmdError Writes := do
  requireInput s
  requireLength s 2
  return { results := [(0, headerVcid (inputString s))] }

/-- The body of FH_COUNT (45_frame.md R204). -/
def fhCountBody (s : State) : Except CmdError Writes := do
  requireInput s
  requireLength s 4
  return { results := [(0, headerCount (inputString s))] }

/-- The body of FH_VALID (45_frame.md R205): too short is 0, never an error. -/
def fhValidBody (s : State) : Except CmdError Writes := do
  requireInput s
  return { results := [(0, boolWord (decide (6 ≤ s.inLen.toNat) && (headerVersion (inputString s) == 0)))] }

/-- The body of FH_IS_CMD (45_frame.md R206). -/
def fhIsCmdBody (s : State) : Except CmdError Writes := do
  requireInput s
  requireLength s 6
  return { results := [(0, headerIsCommand (inputString s))] }

/-- The body of FH_IS_TM (45_frame.md R207). -/
def fhIsTmBody (s : State) : Except CmdError Writes := do
  requireInput s
  requireLength s 6
  return { results := [(0, headerIsTelemetry (inputString s))] }

/-- The body of FH_BUILD (45_frame.md R208). -/
def fhBuildBody (s : State) : Except CmdError Writes := do
  requireArgs s [(0, 1023), (1, 7), (2, 65535), (3, 0xFFFF), (4, 1)]
  requireRoom s 6
  return { output := some (header (s.getArg 0) (s.getArg 1) (s.getArg 2) (s.getArg 3) (s.getArg 4)) }

/-- The body of TM_BUILD (45_frame.md R210). -/
def tmBuildBody (s : State) : Except CmdError Writes := do
  requireInput s
  requireArgs s [(0, 1023), (1, 7), (2, 65535), (3, 0xFFFF), (4, 1)]
  let o := argNat s 4
  let size := frameSize s
  require (6 + 4 * o + 2 + 1 ≤ size) .outOfRange 6
  requireRoom s size
  let head := header (s.getArg 0) (s.getArg 1) (s.getArg 2) (s.getArg 3) (s.getArg 4)
  let f := frameBody head (inputString s) (size - 6 - 4 * o - 2) (if o = 1 then bytes32 (s.getArg 5) else [])
  return { results := [(0, (crc16 f).setWidth 32)], output := some (withFecf f) }

/-- The body of TC_BUILD (45_frame.md R211): no OCF; ARG4 and ARG5 are not read. -/
def tcBuildBody (s : State) : Except CmdError Writes := do
  requireInput s
  requireArgs s [(0, 1023), (1, 7), (2, 65535), (3, 0xFFFF)]
  let size := frameSize s
  require (9 ≤ size) .outOfRange 6
  requireRoom s size
  let head := header (s.getArg 0) (s.getArg 1) (s.getArg 2) (s.getArg 3) 0
  let f := frameBody head (inputString s) (size - 8) []
  return { results := [(0, (crc16 f).setWidth 32)], output := some (withFecf f) }

/-- FH_PARSE, 45_frame.md R201. -/
def execFhParse (s : State) : Host.Outcome State Fault Refusal := runCommand .fhParse (fhParseBody s) s

/-- FH_SCID, 45_frame.md R202. -/
def execFhScid (s : State) : Host.Outcome State Fault Refusal := runCommand .fhScid (fhScidBody s) s

/-- FH_VCID, 45_frame.md R203. -/
def execFhVcid (s : State) : Host.Outcome State Fault Refusal := runCommand .fhVcid (fhVcidBody s) s

/-- FH_COUNT, 45_frame.md R204. -/
def execFhCount (s : State) : Host.Outcome State Fault Refusal := runCommand .fhCount (fhCountBody s) s

/-- FH_VALID, 45_frame.md R205. -/
def execFhValid (s : State) : Host.Outcome State Fault Refusal := runCommand .fhValid (fhValidBody s) s

/-- FH_IS_CMD, 45_frame.md R206. -/
def execFhIsCmd (s : State) : Host.Outcome State Fault Refusal := runCommand .fhIsCmd (fhIsCmdBody s) s

/-- FH_IS_TM, 45_frame.md R207. -/
def execFhIsTm (s : State) : Host.Outcome State Fault Refusal := runCommand .fhIsTm (fhIsTmBody s) s

/-- FH_BUILD, 45_frame.md R208. -/
def execFhBuild (s : State) : Host.Outcome State Fault Refusal := runCommand .fhBuild (fhBuildBody s) s

/-- TM_BUILD, 45_frame.md R210. -/
def execTmBuild (s : State) : Host.Outcome State Fault Refusal := runCommand .tmBuild (tmBuildBody s) s

/-- TC_BUILD, 45_frame.md R211. -/
def execTcBuild (s : State) : Host.Outcome State Fault Refusal := runCommand .tcBuild (tcBuildBody s) s

end Sys2Proof.Machine
end

