-- ==== Sys2Proof/Machine/Scrambler.lean ====
section
/-! DEFINITION. The scrambler family (44_scrambler.md): the tap rule is normative (90_conflicts.md C3). -/

namespace Sys2Proof.Machine

/-- SCR_SEED (00_scope.md R6). -/
def scrSeed : Byte := 0xFF

/-- One step of the scrambler's state: shift right, feedback of bits 2, 4, 6, 7 into bit 7 (44_scrambler.md R180). -/
def scrNext (s : Byte) : Byte :=
  (s >>> 1) |||
    ((BitVec.ofBool (s.getLsbD 2 ^^ s.getLsbD 4 ^^ s.getLsbD 6 ^^ s.getLsbD 7)).setWidth 8 <<< 7)

/-- `n` steps of 44_scrambler.md R180 from the byte under assembly `g` and the state `s`: each emits bit 0 of the
state, MSB first, and steps the state. -/
def scrBits : Nat → Byte → Byte → Byte × Byte
  | 0, g, s => (g, s)
  | n + 1, g, s => scrBits n ((g <<< 1) ||| (s &&& 1)) (scrNext s)

/-- `n` bytes of the sequence from the state `s`, which runs on from byte to byte. -/
def scrBytes : Nat → Byte → List Byte
  | 0, _ => []
  | n + 1, s => (scrBits 8 0 s).1 :: scrBytes n (scrBits 8 0 s).2

/-- `scr_seq(n)`: seeded anew by every operation (44_scrambler.md R180). -/
def scrSeq (n : Nat) : List Byte := scrBytes n scrSeed

/-- `scramble(x)` (44_scrambler.md R180). -/
def scramble (x : List Byte) : List Byte := List.zipWith (· ^^^ ·) x (scrSeq x.length)

/-- The body of the copying variants (44_scrambler.md R181, R183). -/
def scrCopyBody (s : State) : Except CmdError Writes := do
  requireInput s
  requireRoom s s.inLen.toNat
  return { output := some (scramble (inputString s)) }

/-- The body of the in-place variants (44_scrambler.md R182, R184). -/
def scrInPlaceBody (s : State) : Except CmdError Writes := do
  requireInput s
  return { input := some (scramble (inputString s)) }

/-- The body of SCR_SEQ (44_scrambler.md R185). -/
def scrSeqBody (s : State) : Except CmdError Writes := do
  requireRoom s (argNat s 0)
  return { output := some (scrSeq (argNat s 0)) }

/-- SCR_RAND, 44_scrambler.md R181. -/
def execScrRand (s : State) : Host.Outcome State Fault Refusal := runCommand .scrRand (scrCopyBody s) s

/-- SCR_RAND_IP, 44_scrambler.md R182. -/
def execScrRandIp (s : State) : Host.Outcome State Fault Refusal := runCommand .scrRandIp (scrInPlaceBody s) s

/-- SCR_DERAND, 44_scrambler.md R183. -/
def execScrDerand (s : State) : Host.Outcome State Fault Refusal := runCommand .scrDerand (scrCopyBody s) s

/-- SCR_DERAND_IP, 44_scrambler.md R184. -/
def execScrDerandIp (s : State) : Host.Outcome State Fault Refusal := runCommand .scrDerandIp (scrInPlaceBody s) s

/-- SCR_SEQ, 44_scrambler.md R185. -/
def execScrSeq (s : State) : Host.Outcome State Fault Refusal := runCommand .scrSeq (scrSeqBody s) s

end Sys2Proof.Machine
end

