-- ==== Sys2Proof/Machine/Dispatch.lean ====
section
/-! DEFINITION. One arm per operation of 30_encoding.md R81, each its meaning. -/

namespace Sys2Proof.Machine

/-- The command cycle of a legal command (30_encoding.md R90), after CMD has been written. -/
def exec (i : Instr) (s : State) : Host.Outcome State Fault Refusal :=
  match i with
  | .crcCalc => Sys2Proof.Machine.execCrcCalc s
  | .crcVerify => Sys2Proof.Machine.execCrcVerify s
  | .crcAppend => Sys2Proof.Machine.execCrcAppend s
  | .crcVerifyApp => Sys2Proof.Machine.execCrcVerifyApp s
  | .parCalc => Sys2Proof.Machine.execParCalc s
  | .parVerify => Sys2Proof.Machine.execParVerify s
  | .cltuEnc => Sys2Proof.Machine.execCltuEnc s
  | .cltuDec => Sys2Proof.Machine.execCltuDec s
  | .cltuSize => Sys2Proof.Machine.execCltuSize s
  | .cltuBlocks => Sys2Proof.Machine.execCltuBlocks s
  | .scrRand => Sys2Proof.Machine.execScrRand s
  | .scrRandIp => Sys2Proof.Machine.execScrRandIp s
  | .scrDerand => Sys2Proof.Machine.execScrDerand s
  | .scrDerandIp => Sys2Proof.Machine.execScrDerandIp s
  | .scrSeq => Sys2Proof.Machine.execScrSeq s
  | .fhParse => Sys2Proof.Machine.execFhParse s
  | .fhScid => Sys2Proof.Machine.execFhScid s
  | .fhVcid => Sys2Proof.Machine.execFhVcid s
  | .fhCount => Sys2Proof.Machine.execFhCount s
  | .fhValid => Sys2Proof.Machine.execFhValid s
  | .fhIsCmd => Sys2Proof.Machine.execFhIsCmd s
  | .fhIsTm => Sys2Proof.Machine.execFhIsTm s
  | .fhBuild => Sys2Proof.Machine.execFhBuild s
  | .tmBuild => Sys2Proof.Machine.execTmBuild s
  | .tcBuild => Sys2Proof.Machine.execTcBuild s
  | .clcwEnc => Sys2Proof.Machine.execClcwEnc s
  | .clcwEncFull => Sys2Proof.Machine.execClcwEncFull s
  | .clcwDec => Sys2Proof.Machine.execClcwDec s
  | .clcwNominal => Sys2Proof.Machine.execClcwNominal s

end Sys2Proof.Machine
end

