-- ==== Sys2Proof/Machine/Step.lean ====
section
/-! DEFINITION. One step: the next host access or reset in the one total order of 20_memory.md R60
(70_reset_and_hazards.md R308: each host access and each command is one step). -/

namespace Sys2Proof.Machine

/-- Run the command whose word was written to CMD, or fail it as illegal (30_encoding.md R90). -/
def runWord (w : Word) (s : State) : Host.Outcome State Fault Refusal :=
  match selectCommand w with
  | some i => exec i s
  | none => .next (illegalCommand w s)

/-- One host access, with the command it starts, as one indivisible event (20_memory.md R57, R58). -/
def stepAccess (a : Access) (s : State) : Host.Outcome State Fault Refusal :=
  match busAccess s a with
  | (t, some w) => runWord w t
  | (t, none) => .next t

/-- One step: the first event of the host's queue; with nothing asked the block is idle and keeps all its state
(60_exceptions.md R284). -/
def step (s : State) : Host.Outcome State Fault Refusal :=
  match s.pending with
  | [] => .next s
  | .reset :: rest => .next (s.withPending rest).applyReset
  | .access a :: rest => stepAccess a (s.withPending rest)

/-- The state whose next step runs the command word of a row of spec/opcode_table.json: the host's write of that
word to CMD is the next thing in its queue. A word wider than 32 bits is no command (30_encoding.md R84). -/
def State.withFetchWord (s : State) (nbits w : Nat) : State :=
  match tableCommandWord nbits w with
  | some cmd => s.withPending (commandEvent cmd :: s.pending)
  | none => s

end Sys2Proof.Machine
end

