-- ==== Sys2Proof/Machine/Script.lean ====
section
/-! DEFINITION. The host-script notation (30_encoding.md R94, R95): each statement's one access, each
pseudo-instruction's statements. -/

namespace Sys2Proof.Machine

/-- The offset that the host bus address `BASE + n` is in the block's window (20_memory.md R50, R51), if it lies there. -/
def offsetInWindow (n : Nat) : Option Offset := if n < 0x40000 then some (BitVec.ofNat 18 n) else none

/-- The offset of IN index `i`, at `BASE + 0x10000 + i` (30_encoding.md R94); none where that is outside the window. -/
def inOffset (i : Nat) : Option Offset := offsetInWindow (0x10000 + i)

/-- The offset of OUT index `i`, at `BASE + 0x20000 + i` (30_encoding.md R94); none where that is outside the window. -/
def outOffset (i : Nat) : Option Offset := offsetInWindow (0x20000 + i)

/-- The offset of index `i` of a buffer. -/
def bufferOffset : Buffer → Nat → Option Offset
  | .input, i => inOffset i
  | .output, i => outOffset i

/-- The access of the block that a statement's host bus access is (30_encoding.md R94). An IN index from 0x30000 or
an OUT index from 0x20000 gives a host address that no 18-bit offset reaches; the spec gives no such statement, and
here it is no access of the block (DESIGN CHOICE: log entry 13, safe). -/
def stmtAccess : Stmt → Option Access
  | .wr r v => some (.writeWord (BitVec.ofNat 18 (regOffset r)) v)
  | .rd r => some (.read (BitVec.ofNat 18 (regOffset r)) .four)
  | .wrb i b => (inOffset i).map (fun off => .writeByte off b)
  | .wrw i v => (inOffset i).map (fun off => .writeWord off v)
  | .rdb b i => (bufferOffset b i).map (fun off => .read off .one)
  | .rdw i => (outOffset i).map (fun off => .read off .four)
  | .cmd i => some (.writeWord 0 (encode i))

/-- The statements that load a byte string from index `i` on (30_encoding.md R95). -/
def loadBytes : Nat → List Byte → List Stmt
  | _, [] => []
  | i, b :: bs => .wrb i b :: loadBytes (i + 1) bs

/-- The value of `WR IN_LEN, n` in LOADIN (30_encoding.md R95); for an `n` that does not fit 32 bits, which no rule
gives, a free value (DESIGN CHOICE: log entry 15, safe). -/
def loadLength (n : Nat) : Word := if n < 2 ^ 32 then BitVec.ofNat 32 n else Config.oversizeLength n

/-- `LOADIN b0 b1 ... b(n-1)` (30_encoding.md R95). -/
def loadInStmts (bytes : List Byte) : List Stmt :=
  loadBytes 0 bytes ++ [.wr .inLen (loadLength bytes.length)]

/-- The byte LOADIN loads for a character: its ASCII code (30_encoding.md R95); for a character that has none, of
which the spec is silent, one free byte (DESIGN CHOICE: log entry 14). -/
def textByte (c : Char) : Byte := if c.toNat < 128 then BitVec.ofNat 8 c.toNat else Config.nonAsciiByte c.toNat

/-- The bytes of `LOADIN "text"`, one for each character in order: ASCII codes (30_encoding.md R95), and free values
for characters without one (log entry 14). -/
def asciiBytes (t : String) : List Byte := t.toList.map textByte

/-- The loop of MOVEOUT for the `n` bytes from index `i`: each is read from OUT and written to IN. -/
def copyStmts (s : State) : Nat → Nat → List Stmt
  | _, 0 => []
  | i, n + 1 => .rdb .output i :: .wrb i (s.outByte i) :: copyStmts s (i + 1) n

/-- The statements a pseudo-instruction expands into when the host runs it at `s` (30_encoding.md R95). MOVEOUT is a
host loop over OUT_LEN, so its statements depend on the state: each byte it writes is the byte its read returns
(DEDUCED: log entry 10, safe). -/
def expand (s : State) : Pseudo → List Stmt
  | .loadIn bytes => loadInStmts bytes
  | .loadText t => loadInStmts (asciiBytes t)
  | .setArg i v => [.wr (.arg i) v]
  | .moveOut => .rd .outLen :: (copyStmts s 0 s.outLen.toNat ++ [.wr .inLen s.outLen])
  | .run i => [.cmd i, .rd .status]
  | .expectReg _ _ => []
  | .expectBytes _ _ _ => []

/-- Whether the host-side assertion EXPECT holds at a state; the other pseudo-instructions assert nothing
(30_encoding.md R95). A buffer byte at or above the capacity, whose read is a bus error, is compared as what the model's
buffer reads there, a draw in every state of the invariant (DESIGN CHOICE: log entry 16, safe). -/
def expectHolds (s : State) : Pseudo → Bool
  | .expectReg r v => readReg s r == v
  | .expectBytes b i bytes => (List.range bytes.length).map (fun k => bufferByte s b (i + k)) == bytes
  | .loadIn _ => true
  | .loadText _ => true
  | .setArg _ _ => true
  | .moveOut => true
  | .run _ => true

/-- The host asks for the accesses of some statements, in order; a statement that is no access of the block adds
nothing (log entry 13). -/
def State.enqueue (s : State) (l : List Stmt) : State :=
  s.withPending (s.pending ++ (l.filterMap stmtAccess).map .access)

end Sys2Proof.Machine
end

