-- ==== Sys2Proof/Safety.lean ====
section
/-! DEFINITION. What a legal state is, and the terms the statements use: what a command that succeeds or fails
changes and leaves unchanged (00_scope.md R12, 30_encoding.md R90), and which accesses are legal. -/

namespace Sys2Proof.Machine

/-! Legal states -/

/-- The values STATUS.ERRCODE can hold (60_exceptions.md R271). -/
def errCodes : List Byte := [0x00, 0x01, 0x02, 0x03, 0x04, 0x05, 0x10, 0x11, 0x12, 0x13]

/-- STATUS and ERRINFO as some command, or reset, left them (10_state.md R23, R24; 60_exceptions.md R271): the
always-zero bits are zero, DONE and ERR are not both 1, ERRCODE is one of R271's and is nonzero exactly with ERR,
ERRINFO is 0 unless ERR, LAST_OP is the low byte of CMD, and a command that succeeded was a legal one. -/
abbrev State.statusLegal (s : State) : Prop :=
  s.status.extractLsb' 2 6 = 0 ∧ s.status.extractLsb' 24 8 = 0 ∧
  (doneFlag s.status && errFlag s.status) = false ∧
  errCodeField s.status ∈ errCodes ∧
  (errFlag s.status = true ↔ errCodeField s.status ≠ 0) ∧
  (errFlag s.status = false → s.errInfo = 0) ∧
  lastOpField s.status = s.cmd.extractLsb' 0 8 ∧
  (doneFlag s.status = true → (selectCommand s.cmd).isSome = true)

/-- OUT_LEN counts bytes of OUT that operations have written since reset (10_state.md R26). -/
abbrev State.outLenLegal (s : State) : Prop :=
  s.outLen.toNat ≤ s.params.outCap ∧ ∀ i < s.outLen.toNat, (s.outBuf.written i).isSome = true

/-- The invariant of the machine: legal parameters (00_scope.md R6), both buffers in canonical form and below
their capacities (10_state.md R30, R31), OUT_LEN and STATUS as the rules leave them. -/
abbrev State.Inv (s : State) : Prop :=
  s.params.wf ∧ (s.inBuf.wf ∧ s.inBuf.below s.params.inCap) ∧ (s.outBuf.wf ∧ s.outBuf.below s.params.outCap) ∧
  s.outLenLegal ∧ s.statusLegal

/-! What a command does -/

/-- `OUT[0 : OUT_LEN]`. -/
def outputString (s : State) : List Byte := (List.range s.outLen.toNat).map s.outByte

/-- What no command writes: CMD, IN_LEN and ARG (10_state.md R22, R25, R28), the parameters, and the model's own
fields. -/
def hostSideKept (s t : State) : Prop :=
  t.cmd = s.cmd ∧ t.inLen = s.inLen ∧ (∀ k, t.getArg k = s.getArg k) ∧ t.params = s.params ∧
  t.epoch = s.epoch ∧ t.pending = s.pending ∧ t.response = s.response

/-- From `s` to `t` a command has written the RES registers of `results`, the byte string `output` to OUT with its
length to OUT_LEN, and the byte string `input` to IN from index 0, STATUS `status` and ERRINFO 0, and nothing else:
every other RES register, every other byte of OUT and of IN, and (with no `output`) OUT_LEN read as before. -/
def commandEffect (s t : State) (status : Word) (results : List (Fin 16 × Word))
    (output input : Option (List Byte)) : Prop :=
  t.status = status ∧ t.errInfo = 0 ∧
  (∀ k, t.getRes k = (results.lookup k).getD (s.getRes k)) ∧
  t.outLen = (match output with | some r => BitVec.ofNat 32 r.length | none => s.outLen) ∧
  (∀ a, t.outByte a = (match output with | some r => r[a]?.getD (s.outByte a) | none => s.outByte a)) ∧
  (∀ a, t.inByte a = (match input with | some r => r[a]?.getD (s.inByte a) | none => s.inByte a)) ∧
  hostSideKept s t

/-- The command `i` run at `s` ANSWERS A NEXT STATE, in which it has succeeded with exactly these effects. -/
def completes (i : Instr) (s : State) (status : Word) (results : List (Fin 16 × Word))
    (output input : Option (List Byte)) : Prop :=
  ∃ t, exec i s = .next t ∧ commandEffect s t status results output input

/-- The command `i` run at `s` answers the next state in which it has failed: STATUS and ERRINFO as given, nothing
else changed (30_encoding.md R90, 60_exceptions.md R270). -/
def failsWith (i : Instr) (s : State) (status info : Word) : Prop :=
  exec i s = .next { s with status := status, errInfo := info }

/-! Legal accesses -/

/-- A legal access of 20_memory.md R52 and R53, from their words: four bytes at a register's offset, or all bytes
inside the capacity of IN or OUT, at a multiple of 4 when the access has four. -/
def legalAccess (p : Params) (w : Width) (off : Nat) : Prop :=
  (w = .four ∧ ∃ r, off = regOffset r) ∨
  (∃ i, off = 0x10000 + i ∧ i < 0x10000 ∧ i + widthBytes w ≤ p.inCap ∧ (w = .four → i % 4 = 0)) ∨
  (∃ i, off = 0x20000 + i ∧ i < 0x10000 ∧ i + widthBytes w ≤ p.outCap ∧ (w = .four → i % 4 = 0))

/-- The offset of an access. -/
def accessOffset : Access → Nat
  | .read off _ => off.toNat
  | .writeByte off _ => off.toNat
  | .writeWord off _ => off.toNat

/-- The width of an access. -/
def accessWidth : Access → Width
  | .read _ w => w
  | .writeByte _ _ => .one
  | .writeWord _ _ => .four

/-! Safe runs -/

/-- A run of `n` steps from `s` that ends in the state `t`: no step stops. -/
def runsTo (n : Nat) (s t : State) : Prop := Host.Core.run Sys2Proof.core n s = .next t

end Sys2Proof.Machine
end

