-- ==== Sys2Proof/Certificates/Slice0/Obligations.lean ====
section
/-! DEFINITION. The statements about the model, for the provers. `completes`, `failsWith`, `commandEffect`,
`hostSideKept`, `legalAccess` and `State.Inv` are defined in Sys2Proof/Safety.lean. -/

open Sys2Proof Sys2Proof.Machine

/-! ## Encoding -/

/-- Every operation's command word decodes to that operation. -/
def Obligations.EncodedCommandDecodesToItself : Prop :=
  ∀ i : Instr, i.wf = true → decodeWord (encode i) = .ok i ∧ decodeTableWord 32 (encode i).toNat = some i

/-- A command word selects an operation only if it is exactly that operation's word (30_encoding.md R81). -/
def Obligations.DecoderAcceptsOnlyTheTableWords : Prop :=
  ∀ (w : Word) (i : Instr), decodeWord w = .ok i ↔ w = encode i

/-- The words the decoder accepts are the words whose RSV, FAM and FN fields are legal (30_encoding.md R80, R82). -/
def Obligations.LegalFieldsAreTheDecodedWords : Prop :=
  ∀ w : Word, commandWordWf w = true ↔ ∃ i, decodeWord w = .ok i

/-- One command word of each family, written out bit by bit as RSV, FAM, FN (30_encoding.md R80, R81). -/
def Obligations.SampleWordsDecode : Prop :=
  decodeWord 0b000000000000000000000000_0001_0011#32 = .ok .crcVerifyApp ∧
  decodeWord 0b000000000000000000000000_0010_0001#32 = .ok .parVerify ∧
  decodeWord 0b000000000000000000000000_0011_0001#32 = .ok .cltuDec ∧
  decodeWord 0b000000000000000000000000_0100_0100#32 = .ok .scrSeq ∧
  decodeWord 0b000000000000000000000000_0101_1001#32 = .ok .tcBuild ∧
  decodeWord 0b000000000000000000000000_0110_0001#32 = .ok .clcwEncFull

/-! ## The command cycle -/

/-- A step whose next host access writes a legal command word to CMD is `exec` of the decoded operation, at the
state in which the access has been taken from the queue and answered and CMD holds the word. -/
def Obligations.StepRunsTheDecodedCommand : Prop :=
  ∀ (s : State) (w : Word) (i : Instr) (rest : List HostEvent),
    s.pending = .access (.writeWord 0 w) :: rest → decodeWord w = .ok i →
    step s = exec i { s with pending := rest, cmd := w, response := .written }

/-- A write to CMD of a word that is no operation's (30_encoding.md R83): ILLEGAL_OP, ERRINFO the word, LAST_OP its
low byte, CMD the word; everything else as it was. -/
def Obligations.IllegalCommandFailsWithTheWord : Prop :=
  ∀ (s : State) (w : Word) (rest : List HostEvent),
    s.pending = .access (.writeWord 0 w) :: rest → (∀ i, w ≠ encode i) →
    step s = .next { s with
      pending := rest, cmd := w, response := .written,
      status := ((w &&& 0xFF) <<< 16) ||| 0x00000102, errInfo := w }

/-- No step stops: every step from every state answers a next state, which takes exactly the first event from the
queue and keeps the capacities; with an empty queue nothing at all changes. -/
def Obligations.EveryStepAnswersNext : Prop :=
  ∀ s : State, ∃ t, step s = .next t ∧ t.pending = s.pending.tail ∧ t.params = s.params ∧ (s.pending = [] → t = s)

/-- Every operation answers a next state, in which CMD, IN_LEN, ARG, the capacities and the host side are as they
were (10_state.md R22, R25, R28). -/
def Obligations.NoCommandWritesTheHostsRegisters : Prop :=
  ∀ (i : Instr) (s : State), ∃ t, exec i s = .next t ∧ hostSideKept s t

/-- STATUS after any operation (10_state.md R23, 30_encoding.md R90, 60_exceptions.md R271): DONE with LAST_OP and
ERRINFO 0, or ERR with LAST_OP and one of R271's codes of an executed operation; rewritten as a whole. -/
def Obligations.StatusAfterAnyOperation : Prop :=
  ∀ (i : Instr) (s t : State), exec i s = .next t →
    (t.status = (encode i <<< 16) ||| 0x00000001 ∧ t.errInfo = 0) ∨
    (∃ code ∈ [(0x02 : Word), 0x03, 0x04, 0x05, 0x10, 0x11, 0x12, 0x13],
      t.status = (encode i <<< 16) ||| (code <<< 8) ||| 0x00000002)

/-- A failed operation changes STATUS and ERRINFO and nothing else (30_encoding.md R90, 60_exceptions.md R270). -/
def Obligations.FailedCommandChangesOnlyItsReport : Prop :=
  ∀ (i : Instr) (s t : State), exec i s = .next t → errFlag t.status = true →
    t = { s with status := t.status, errInfo := t.errInfo }

/-- The operations that read IN check IN_LEN first, before every other check (30_encoding.md R88). -/
def Obligations.InputLengthIsCheckedFirst : Prop :=
  ∀ (i : Instr) (s : State),
    i ∈ [Instr.crcCalc, .crcVerify, .crcAppend, .crcVerifyApp, .parCalc, .parVerify, .cltuEnc, .cltuDec,
      .scrRand, .scrRandIp, .scrDerand, .scrDerandIp, .fhParse, .fhScid, .fhVcid, .fhCount, .fhValid, .fhIsCmd,
      .fhIsTm, .tmBuild, .tcBuild] →
    s.params.inCap < s.inLen.toNat →
    failsWith i s ((encode i <<< 16) ||| 0x00000202) s.inLen

/-- Only the in-place scrambler operations change IN, and only its first IN_LEN bytes (10_state.md R30). -/
def Obligations.OnlyInPlaceScramblersWriteIn : Prop :=
  ∀ (i : Instr) (s t : State) (a : Nat), exec i s = .next t →
    (i ≠ .scrRandIp ∧ i ≠ .scrDerandIp) ∨ s.inLen.toNat ≤ a →
    t.inByte a = s.inByte a

/-- OUT and OUT_LEN change only in a successful operation whose rule writes OUT; then every byte at or above the new
OUT_LEN keeps its value, whenever the capacities are legal (10_state.md R26, R31). -/
def Obligations.OnlyOutputOperationsWriteOut : Prop :=
  ∀ (i : Instr) (s t : State), s.params.wf → exec i s = .next t →
    (i ∉ [Instr.crcAppend, .cltuEnc, .cltuDec, .scrRand, .scrDerand, .scrSeq, .fhBuild, .tmBuild, .tcBuild] ∨
        doneFlag t.status = false →
      t.outLen = s.outLen ∧ ∀ a, t.outByte a = s.outByte a) ∧
    (∀ a, t.outLen.toNat ≤ a → t.outByte a = s.outByte a)

/-- The RES registers an operation does not name in 30_encoding.md R81 are unchanged by it, and a failed operation
writes none (10_state.md R29). -/
def Obligations.UnnamedResultsAreUnchanged : Prop :=
  ∀ (i : Instr) (s t : State) (k : Fin 16), exec i s = .next t →
    (match i with
      | .scrRand => True
      | .scrRandIp => True
      | .scrDerand => True
      | .scrDerandIp => True
      | .scrSeq => True
      | .fhBuild => True
      | .crcVerify => 1 < k.val
      | .crcVerifyApp => 1 < k.val
      | .parVerify => 1 < k.val
      | .fhParse => 9 < k.val
      | .clcwDec => 12 < k.val
      | _ => 0 < k.val) ∨ errFlag t.status = true →
    t.getRes k = s.getRes k

/-- Determinism and independence (30_encoding.md R91, 10_state.md R32): from two states with the same capacities,
IN_LEN, first IN_LEN bytes of IN and ARG, an operation answers two next states with the same STATUS and ERRINFO, in
which each RES register and each byte of OUT and of the input string is the same value in both or unwritten in
both, whatever any earlier command left behind. -/
def Obligations.OutcomeDependsOnlyOnTheOperands : Prop :=
  ∀ (i : Instr) (s t : State),
    s.params = t.params → s.inLen = t.inLen → (∀ k, s.getArg k = t.getArg k) →
    (∀ a < s.inLen.toNat, s.inByte a = t.inByte a) →
    ∃ s' t', exec i s = .next s' ∧ exec i t = .next t' ∧
      s'.status = t'.status ∧ s'.errInfo = t'.errInfo ∧
      (∀ k, s'.getRes k = t'.getRes k ∨ (s'.getRes k = s.getRes k ∧ t'.getRes k = t.getRes k)) ∧
      (∀ a < s.inLen.toNat, s'.inByte a = t'.inByte a) ∧
      ((s'.outLen = t'.outLen ∧
          ∀ a, s'.outByte a = t'.outByte a ∨ (s'.outByte a = s.outByte a ∧ t'.outByte a = t.outByte a)) ∨
        (s'.outLen = s.outLen ∧ t'.outLen = t.outLen ∧
          ∀ a, s'.outByte a = s.outByte a ∧ t'.outByte a = t.outByte a))

/-! ## Reset and the invariant -/

/-- The platform's reset as a step (70_reset_and_hazards.md R300): every register zero, IN_CAP and OUT_CAP as they
were, and no byte of IN or OUT holding a written value, so that each reads as an unspecified draw. -/
def Obligations.ResetClearsTheBlock : Prop :=
  ∀ (s : State) (rest : List HostEvent), s.pending = .reset :: rest →
    ∃ t, step s = .next t ∧ t.cmd = 0 ∧ t.status = 0 ∧ t.errInfo = 0 ∧ t.inLen = 0 ∧ t.outLen = 0 ∧
      (∀ k, t.getArg k = 0 ∧ t.getRes k = 0) ∧ t.params = s.params ∧
      ∀ a, t.inBuf.written a = none ∧ t.outBuf.written a = none

/-- The state after reset (10_state.md R34): every register zero, IN_CAP and OUT_CAP at the default of
00_scope.md R6, no byte of a buffer written. -/
def Obligations.ResetStateValues : Prop :=
  (∀ r : Reg, readReg State.reset r = (match r with | .inCap => 4096 | .outCap => 4096 | _ => 0)) ∧
  ∀ a, State.reset.inBuf.written a = none ∧ State.reset.outBuf.written a = none

/-- The invariant holds right after reset. -/
def Obligations.ResetSatisfiesInv : Prop := State.reset.Inv

/-- Every step keeps the invariant: legal capacities, canonical buffers inside them, OUT_LEN within OUT_CAP and
counting written bytes only, STATUS, ERRINFO and CMD as the rules leave them. -/
def Obligations.EveryStepKeepsInv : Prop :=
  ∀ s t : State, s.Inv → step s = .next t → t.Inv

/-! ## CRC-16 -/

/-- CRC_CALC (41_crc.md R111), with the rule's two values of the CRC: of the empty string and of "123456789". -/
def Obligations.CrcCalcResult : Prop :=
  (∀ s : State,
    if s.params.inCap < s.inLen.toNat then failsWith .crcCalc s 0x00100202 s.inLen
    else completes .crcCalc s 0x00100001 [(0, (crc16 (inputString s)).setWidth 32)] none none) ∧
  crc16 [] = 0xFFFF ∧ crc16 [0x31, 0x32, 0x33, 0x34, 0x35, 0x36, 0x37, 0x38, 0x39] = 0x29B1

/-- CRC_VERIFY (41_crc.md R112). -/
def Obligations.CrcVerifyResult : Prop :=
  ∀ s : State,
    if s.params.inCap < s.inLen.toNat then failsWith .crcVerify s 0x00110202 s.inLen
    else if 0xFFFF < argNat s 0 then failsWith .crcVerify s 0x00110302 0
    else completes .crcVerify s 0x00110001
      [(0, (crc16 (inputString s)).setWidth 32),
       (1, if (crc16 (inputString s)).toNat = argNat s 0 then 1 else 0)] none none

/-- CRC_APPEND (41_crc.md R113). -/
def Obligations.CrcAppendResult : Prop :=
  ∀ s : State,
    if s.params.inCap < s.inLen.toNat then failsWith .crcAppend s 0x00120202 s.inLen
    else if s.params.outCap < s.inLen.toNat + 2 then
      failsWith .crcAppend s 0x00120502 (BitVec.ofNat 32 (s.inLen.toNat + 2))
    else completes .crcAppend s 0x00120001 [(0, (crc16 (inputString s)).setWidth 32)]
      (some (inputString s ++ [(crc16 (inputString s)).extractLsb' 8 8, (crc16 (inputString s)).extractLsb' 0 8])) none

/-- CRC_VERIFY_APP (41_crc.md R114); with two bytes or more the test is that the CRC of the whole input is zero. -/
def Obligations.CrcVerifyAppResult : Prop :=
  ∀ s : State,
    let x := inputString s
    let n := s.inLen.toNat
    (if s.params.inCap < n then failsWith .crcVerifyApp s 0x00130202 s.inLen
      else if n < 2 then completes .crcVerifyApp s 0x00130001 [(0, 0), (1, 0)] none none
      else completes .crcVerifyApp s 0x00130001
        [(0, (crc16 (x.take (n - 2))).setWidth 32),
         (1, if crc16 (x.take (n - 2)) = be16 (byteAt x (n - 2)) (byteAt x (n - 1)) then 1 else 0)] none none) ∧
    (2 ≤ n → (crc16 (x.take (n - 2)) = be16 (byteAt x (n - 2)) (byteAt x (n - 1)) ↔ crc16 x = 0))

/-- The residue law (41_crc.md R115). -/
def Obligations.CrcResidueIsZero : Prop :=
  ∀ x : List Byte, crc16 (x ++ bytes16 (crc16 x)) = 0

/-! ## Block parity -/

/-- PAR_CALC (42_parity.md R131), with the rule's values of the parity. -/
def Obligations.ParCalcResult : Prop :=
  (∀ s : State,
    if s.params.inCap < s.inLen.toNat then failsWith .parCalc s 0x00200202 s.inLen
    else completes .parCalc s 0x00200001 [(0, (parity (inputString s)).setWidth 32)] none none) ∧
  parity [] = 0x00 ∧ parity [0x01, 0x02, 0x03, 0x04, 0x05, 0x06, 0x07] = 0x1E ∧
  ∀ b ∈ [(0x55 : Byte), 0xFF, 0x00], parity (List.replicate 7 b) = b

/-- PAR_VERIFY (42_parity.md R132). -/
def Obligations.ParVerifyResult : Prop :=
  ∀ s : State,
    let d := argNat s 0
    let p := parity ((inputString s).take d)
    if s.params.inCap < s.inLen.toNat then failsWith .parVerify s 0x00210202 s.inLen
    else if 65535 < d then failsWith .parVerify s 0x00210302 0
    else if s.inLen.toNat < d + 1 then failsWith .parVerify s 0x00210402 (BitVec.ofNat 32 (d + 1))
    else completes .parVerify s 0x00210001
      [(0, p.setWidth 32), (1, if s.inByte d = p then 1 else 0)] none none

/-- The closed form of the parity (42_parity.md R133): the byte at index k of n is rotated left n - k places. -/
def Obligations.ParityClosedForm : Prop :=
  ∀ d : List Byte,
    parity d = (List.range d.length).foldl (fun a k => a ^^^ (byteAt d k).rotateLeft (d.length - k)) 0

/-- A change of any one byte changes the parity (42_parity.md R133 a); two changes can cancel (c). -/
def Obligations.ParityDetectsOneChangedByte : Prop :=
  (∀ (d : List Byte) (k : Nat) (v : Byte), k < d.length → v ≠ byteAt d k → parity (d.set k v) ≠ parity d) ∧
  parity [0x01, 0x02] = parity [0x00, 0x00]

/-! ## CLTU -/

/-- The CLTU format, byte by byte (43_cltu.md R150, R151): the length; the markers; in block i, data byte j is the
payload's byte 7i+j or the fill byte past its end, and the eighth byte is the parity of those seven. -/
def Obligations.CltuEncodeLayout : Prop :=
  ∀ p : List Byte,
    let n := (p.length + 6) / 7
    let r := cltuEncode p
    r.length = 9 + 8 * n ∧ r.take 2 = [0xEB, 0x90] ∧ r.drop (2 + 8 * n) = List.replicate 7 0xC5 ∧
    ∀ i < n,
      (∀ j < 7, byteAt r (2 + 8 * i + j) = p.getD (7 * i + j) 0x55) ∧
      byteAt r (2 + 8 * i + 7) = parity ((List.range 7).map (fun j => p.getD (7 * i + j) 0x55))

/-- CLTU_ENC (43_cltu.md R152). -/
def Obligations.CltuEncResult : Prop :=
  ∀ s : State,
    let p := inputString s
    let n := (s.inLen.toNat + 6) / 7
    if s.params.inCap < s.inLen.toNat then failsWith .cltuEnc s 0x00300202 s.inLen
    else if s.params.outCap < 9 + 8 * n then failsWith .cltuEnc s 0x00300502 (BitVec.ofNat 32 (9 + 8 * n))
    else completes .cltuEnc s 0x00300001 [(0, BitVec.ofNat 32 n)] (some (cltuEncode p)) none

/-- CLTU_DEC (43_cltu.md R153): the checks in order; the first failing block; and otherwise
the data of all blocks with trailing fill bytes stripped down to the expected length E = ARG0. -/
def Obligations.CltuDecResult : Prop :=
  ∀ s : State,
    let b := inputString s
    let n := s.inLen.toNat
    let e := argNat s 0
    let blocks := (n - 9) / 8
    let bad := fun i => parity ((b.drop (2 + 8 * i)).take 7) ≠ byteAt b (2 + 8 * i + 7)
    if s.params.inCap < n then failsWith .cltuDec s 0x00310202 s.inLen
    else if n < 2 ∨ byteAt b 0 ≠ 0xEB ∨ byteAt b 1 ≠ 0x90 then failsWith .cltuDec s 0x00311002 0
    else if n < 9 ∨ b.drop (n - 7) ≠ List.replicate 7 0xC5 then failsWith .cltuDec s 0x00311102 0
    else if (n - 9) % 8 ≠ 0 then failsWith .cltuDec s 0x00311202 (BitVec.ofNat 32 (n - 9))
    else
      (∀ i < blocks, bad i → (∀ j < i, ¬bad j) → failsWith .cltuDec s 0x00311302 (BitVec.ofNat 32 i)) ∧
      ((∀ i < blocks, ¬bad i) →
        ∃ data k, (List.range blocks).flatMap (fun i => (b.drop (2 + 8 * i)).take 7) = data ++ List.replicate k 0x55 ∧
          (k = 0 ∨ e ≤ data.length) ∧ (data.length ≤ e ∨ data.getLast? ≠ some 0x55) ∧
          if s.params.outCap < data.length then failsWith .cltuDec s 0x00310502 (BitVec.ofNat 32 data.length)
          else completes .cltuDec s 0x00310001 [(0, BitVec.ofNat 32 blocks)] (some data) none)

/-- CLTU_SIZE (43_cltu.md R154) and CLTU_BLOCKS (R155); neither reads IN or checks IN_LEN. -/
def Obligations.CltuSizeAndBlocksResult : Prop :=
  ∀ s : State,
    (if 0x00FFFFFF < argNat s 0 then failsWith .cltuSize s 0x00320302 0
      else completes .cltuSize s 0x00320001 [(0, BitVec.ofNat 32 (2 + 8 * ((argNat s 0 + 6) / 7) + 7))] none none) ∧
    completes .cltuBlocks s 0x00330001 [(0, BitVec.ofNat 32 ((argNat s 0 + 6) / 7))] none none

/-- The round trip (43_cltu.md R156): CLTU_DEC of an encoded payload p that fits both buffers gives back p with
E = |p|, and with E = 0 exactly when p is empty or does not end in the fill byte. -/
def Obligations.CltuRoundTrip : Prop :=
  ∀ (s : State) (p : List Byte), s.params.wf → inputString s = cltuEncode p →
    (cltuEncode p).length ≤ s.params.inCap → (cltuEncode p).length ≤ s.params.outCap →
    (argNat s 0 = p.length →
      completes .cltuDec s 0x00310001 [(0, BitVec.ofNat 32 ((p.length + 6) / 7))] (some p) none) ∧
    (argNat s 0 = 0 → ∃ t, exec .cltuDec s = .next t ∧ t.status = 0x00310001 ∧
      (outputString t = p ↔ p = [] ∨ p.getLast? ≠ some 0x55))

/-- Corruption detection (43_cltu.md R157): if the unit of s is valid (CLTU_DEC accepts it, or finds only OUT too small
for its data), then on the same unit with one byte k changed it fails, a code block's byte with CLTU_BLOCK_PARITY for that block, a marker byte with the marker's error;
and two changes in one block can go undetected. -/
def Obligations.CltuDetectsOneChangedByte : Prop :=
  (∀ (s t u : State) (k : Nat) (v : Byte),
    exec .cltuDec s = .next t → t.status = 0x00310001 ∨ t.status = 0x00310502 →
    u.params = s.params → u.inLen = s.inLen →
    k < s.inLen.toNat → v ≠ s.inByte k → inputString u = (inputString s).set k v →
    (k < 2 → failsWith .cltuDec u 0x00311002 0) ∧
    (s.inLen.toNat - 7 ≤ k → failsWith .cltuDec u 0x00311102 0) ∧
    (2 ≤ k → k < s.inLen.toNat - 7 → failsWith .cltuDec u 0x00311302 (BitVec.ofNat 32 ((k - 2) / 8)))) ∧
  (∃ (b c : List Byte), b ≠ c ∧ b.length = c.length ∧ (∀ j : Nat, j ≠ 2 → j ≠ 3 → byteAt b j = byteAt c j) ∧
    (∀ s : State, b.length ≤ s.params.inCap → 7 ≤ s.params.outCap →
      (inputString s = b ∨ inputString s = c) → ∃ t, exec .cltuDec s = .next t ∧ t.status = 0x00310001))

/-! ## Scrambler -/

/-- SCR_RAND and SCR_DERAND (44_scrambler.md R181, R183): the same semantics, under their two opcodes; and what
`scramble` is, byte by byte (R180). -/
def Obligations.CopyingScramblersResult : Prop :=
  (∀ s : State,
    if s.params.inCap < s.inLen.toNat then
      failsWith .scrRand s 0x00400202 s.inLen ∧ failsWith .scrDerand s 0x00420202 s.inLen
    else if s.params.outCap < s.inLen.toNat then
      failsWith .scrRand s 0x00400502 s.inLen ∧ failsWith .scrDerand s 0x00420502 s.inLen
    else completes .scrRand s 0x00400001 [] (some (scramble (inputString s))) none ∧
      completes .scrDerand s 0x00420001 [] (some (scramble (inputString s))) none) ∧
  ∀ x : List Byte, (scramble x).length = x.length ∧
    ∀ i < x.length, byteAt (scramble x) i = byteAt x i ^^^ byteAt (scrSeq x.length) i

/-- SCR_RAND_IP and SCR_DERAND_IP (44_scrambler.md R182, R184): they write IN[0:IN_LEN] only, each byte XORed with
the sequence's byte of its index (R180). -/
def Obligations.InPlaceScramblersResult : Prop :=
  ∀ s : State,
    (if s.params.inCap < s.inLen.toNat then
      failsWith .scrRandIp s 0x00410202 s.inLen ∧ failsWith .scrDerandIp s 0x00430202 s.inLen
    else completes .scrRandIp s 0x00410001 [] none (some (scramble (inputString s))) ∧
      completes .scrDerandIp s 0x00430001 [] none (some (scramble (inputString s)))) ∧
    (scramble (inputString s)).length = s.inLen.toNat ∧
    ∀ i < s.inLen.toNat, byteAt (scramble (inputString s)) i = s.inByte i ^^^ byteAt (scrSeq s.inLen.toNat) i

/-- SCR_SEQ (44_scrambler.md R185): IN and IN_LEN do not matter; each sequence is a beginning of every longer one. -/
def Obligations.ScrSeqResult : Prop :=
  (∀ s : State,
    if s.params.outCap < argNat s 0 then failsWith .scrSeq s 0x00440502 (s.getArg 0)
    else completes .scrSeq s 0x00440001 [] (some (scrSeq (argNat s 0))) none) ∧
  ∀ m n, m ≤ n → (scrSeq n).take m = scrSeq m

/-- The sequence (44_scrambler.md R180, R186): its first 22 bytes, its length, its period of 21 bytes from index 1,
and 0xFF at index 0 only. -/
def Obligations.ScramblerSequencePeriod : Prop :=
  scrSeq 22 = [0xFF, 0x62, 0x39, 0xFB, 0x11, 0xCF, 0xD8, 0x8E, 0x7E, 0xC4, 0x73, 0xF6, 0x23, 0x9F, 0xB1, 0x1C,
    0xFD, 0x88, 0xE7, 0xEC, 0x47, 0x3F] ∧
  (∀ n, (scrSeq n).length = n) ∧
  (∀ n i : Nat, 1 ≤ i → i + 21 < n → byteAt (scrSeq n) (i + 21) = byteAt (scrSeq n) i) ∧
  (∀ n i : Nat, i < n → (byteAt (scrSeq n) i = 0xFF ↔ i = 0))

/-- The involution (44_scrambler.md R187), on strings and on the machine: an in-place scramble and then an in-place
descramble leave every byte of IN as it was. -/
def Obligations.ScrambleTwiceIsIdentity : Prop :=
  (∀ x : List Byte, scramble (scramble x) = x) ∧
  (∀ s : State, s.inLen.toNat ≤ s.params.inCap →
    ∃ t u, exec .scrRandIp s = .next t ∧ exec .scrDerandIp t = .next u ∧ ∀ a, u.inByte a = s.inByte a)

/-! ## Frame header and frame builders -/

/-- FH_PARSE (45_frame.md R201), the fields by their bits of word0, bytes 2 and 3, and word1 (R200). -/
def Obligations.FhParseResult : Prop :=
  ∀ s : State,
    let word0 := (s.inByte 0).toNat * 256 + (s.inByte 1).toNat
    let mc := (s.inByte 2).toNat
    let vc := (s.inByte 3).toNat
    let dfs := (s.inByte 4).toNat * 256 + (s.inByte 5).toNat
    if s.params.inCap < s.inLen.toNat then failsWith .fhParse s 0x00500202 s.inLen
    else if s.inLen.toNat < 6 then failsWith .fhParse s 0x00500402 6
    else completes .fhParse s 0x00500001
      [(0, BitVec.ofNat 32 (word0 / 16384)), (1, BitVec.ofNat 32 (word0 / 16 % 1024)),
       (2, BitVec.ofNat 32 (word0 / 2 % 8)), (3, BitVec.ofNat 32 (word0 % 2)),
       (4, BitVec.ofNat 32 mc), (5, BitVec.ofNat 32 vc), (6, BitVec.ofNat 32 dfs),
       (7, BitVec.ofNat 32 (mc * 256 + vc)), (8, BitVec.ofNat 32 (dfs / 32768)),
       (9, BitVec.ofNat 32 (1 - dfs / 32768))] none none

/-- FH_SCID, FH_VCID and FH_COUNT (45_frame.md R202, R203, R204): each needs only the bytes it reads. -/
def Obligations.FieldExtractorsResult : Prop :=
  ∀ s : State,
    let word0 := (s.inByte 0).toNat * 256 + (s.inByte 1).toNat
    if s.params.inCap < s.inLen.toNat then
      failsWith .fhScid s 0x00510202 s.inLen ∧ failsWith .fhVcid s 0x00520202 s.inLen ∧
      failsWith .fhCount s 0x00530202 s.inLen
    else
      (if s.inLen.toNat < 2 then failsWith .fhScid s 0x00510402 2
        else completes .fhScid s 0x00510001 [(0, BitVec.ofNat 32 (word0 / 16 % 1024))] none none) ∧
      (if s.inLen.toNat < 2 then failsWith .fhVcid s 0x00520402 2
        else completes .fhVcid s 0x00520001 [(0, BitVec.ofNat 32 (word0 / 2 % 8))] none none) ∧
      (if s.inLen.toNat < 4 then failsWith .fhCount s 0x00530402 4
        else completes .fhCount s 0x00530001
          [(0, BitVec.ofNat 32 ((s.inByte 2).toNat * 256 + (s.inByte 3).toNat))] none none)

/-- FH_VALID (45_frame.md R205): at least six bytes and version 0; never an error for a short input. -/
def Obligations.FhValidResult : Prop :=
  ∀ s : State,
    if s.params.inCap < s.inLen.toNat then failsWith .fhValid s 0x00540202 s.inLen
    else completes .fhValid s 0x00540001
      [(0, if 6 ≤ s.inLen.toNat ∧ (s.inByte 0).toNat < 64 then 1 else 0)] none none

/-- FH_IS_CMD and FH_IS_TM (45_frame.md R206, R207): bit 15 of the data-field status, which is bit 7 of byte 4. -/
def Obligations.CommandOrTelemetryResult : Prop :=
  ∀ s : State,
    if s.params.inCap < s.inLen.toNat then
      failsWith .fhIsCmd s 0x00550202 s.inLen ∧ failsWith .fhIsTm s 0x00560202 s.inLen
    else if s.inLen.toNat < 6 then failsWith .fhIsCmd s 0x00550402 6 ∧ failsWith .fhIsTm s 0x00560402 6
    else
      completes .fhIsCmd s 0x00550001 [(0, if 128 ≤ (s.inByte 4).toNat then 1 else 0)] none none ∧
      completes .fhIsTm s 0x00560001 [(0, if 128 ≤ (s.inByte 4).toNat then 0 else 1)] none none

/-- FH_BUILD (45_frame.md R208), the header's six bytes by their values (R200, R209). -/
def Obligations.FhBuildResult : Prop :=
  ∀ s : State,
    let word0 := argNat s 0 * 16 + argNat s 1 * 2 + argNat s 4
    if 1023 < argNat s 0 then failsWith .fhBuild s 0x00570302 0
    else if 7 < argNat s 1 then failsWith .fhBuild s 0x00570302 1
    else if 65535 < argNat s 2 then failsWith .fhBuild s 0x00570302 2
    else if 0xFFFF < argNat s 3 then failsWith .fhBuild s 0x00570302 3
    else if 1 < argNat s 4 then failsWith .fhBuild s 0x00570302 4
    else if s.params.outCap < 6 then failsWith .fhBuild s 0x00570502 6
    else completes .fhBuild s 0x00570001 []
      (some [BitVec.ofNat 8 (word0 / 256), BitVec.ofNat 8 word0, BitVec.ofNat 8 (argNat s 2 / 256),
        BitVec.ofNat 8 (argNat s 2), BitVec.ofNat 8 (argNat s 3 / 256), BitVec.ofNat 8 (argNat s 3)]) none

/-- TM_BUILD (45_frame.md R210, R212): the checks in order, then header, payload
left-justified in D bytes, OCF slot if ARG4 = 1, and the FECF. -/
def Obligations.TmBuildResult : Prop :=
  ∀ s : State,
    let o := argNat s 4
    let size := if argNat s 6 = 0 then 1115 else argNat s 6
    let d := size - 6 - 4 * o - 2
    let f := header (s.getArg 0) (s.getArg 1) (s.getArg 2) (s.getArg 3) (s.getArg 4) ++
      (List.range d).map (fun a => if a < s.inLen.toNat then s.inByte a else 0) ++
      (if o = 1 then [(s.getArg 5).extractLsb' 24 8, (s.getArg 5).extractLsb' 16 8,
        (s.getArg 5).extractLsb' 8 8, (s.getArg 5).extractLsb' 0 8] else [])
    if s.params.inCap < s.inLen.toNat then failsWith .tmBuild s 0x00580202 s.inLen
    else if 1023 < argNat s 0 then failsWith .tmBuild s 0x00580302 0
    else if 7 < argNat s 1 then failsWith .tmBuild s 0x00580302 1
    else if 65535 < argNat s 2 then failsWith .tmBuild s 0x00580302 2
    else if 0xFFFF < argNat s 3 then failsWith .tmBuild s 0x00580302 3
    else if 1 < o then failsWith .tmBuild s 0x00580302 4
    else if size < 6 + 4 * o + 2 + 1 then failsWith .tmBuild s 0x00580302 6
    else if s.params.outCap < size then failsWith .tmBuild s 0x00580502 (BitVec.ofNat 32 size)
    else completes .tmBuild s 0x00580001 [(0, (crc16 f).setWidth 32)]
        (some (f ++ [(crc16 f).extractLsb' 8 8, (crc16 f).extractLsb' 0 8])) none ∧ f.length + 2 = size

/-- TC_BUILD (45_frame.md R211, R212): no OCF, ARG4 and ARG5 not read. -/
def Obligations.TcBuildResult : Prop :=
  ∀ s : State,
    let size := if argNat s 6 = 0 then 1115 else argNat s 6
    let f := header (s.getArg 0) (s.getArg 1) (s.getArg 2) (s.getArg 3) 0 ++
      (List.range (size - 8)).map (fun a => if a < s.inLen.toNat then s.inByte a else 0)
    if s.params.inCap < s.inLen.toNat then failsWith .tcBuild s 0x00590202 s.inLen
    else if 1023 < argNat s 0 then failsWith .tcBuild s 0x00590302 0
    else if 7 < argNat s 1 then failsWith .tcBuild s 0x00590302 1
    else if 65535 < argNat s 2 then failsWith .tcBuild s 0x00590302 2
    else if 0xFFFF < argNat s 3 then failsWith .tcBuild s 0x00590302 3
    else if size < 9 then failsWith .tcBuild s 0x00590302 6
    else if s.params.outCap < size then failsWith .tcBuild s 0x00590502 (BitVec.ofNat 32 size)
    else completes .tcBuild s 0x00590001 [(0, (crc16 f).setWidth 32)]
        (some (f ++ [(crc16 f).extractLsb' 8 8, (crc16 f).extractLsb' 0 8])) none ∧ f.length + 2 = size

/-- The header round trip (45_frame.md R213): FH_PARSE of the first six bytes that a successful FH_BUILD, TM_BUILD
or TC_BUILD left in OUT gives the operands back, version 0, and the OCF flag of the frame. -/
def Obligations.HeaderRoundTrip : Prop :=
  ∀ (i : Instr) (s t u : State),
    i = .fhBuild ∨ i = .tmBuild ∨ i = .tcBuild → exec i s = .next t → doneFlag t.status = true →
    u.inLen.toNat ≤ u.params.inCap → 6 ≤ u.inLen.toNat → (∀ a < 6, u.inByte a = t.outByte a) →
    ∃ v, exec .fhParse u = .next v ∧ v.status = 0x00500001 ∧
      v.getRes 0 = 0 ∧ v.getRes 1 = s.getArg 0 ∧ v.getRes 2 = s.getArg 1 ∧
      v.getRes 3 = (if i = .tcBuild then 0 else s.getArg 4) ∧
      v.getRes 4 = BitVec.ofNat 32 (argNat s 2 / 256) ∧ v.getRes 5 = BitVec.ofNat 32 (argNat s 2 % 256) ∧
      v.getRes 6 = s.getArg 3 ∧ v.getRes 7 = s.getArg 2

/-- The FECF law (45_frame.md R214): a frame that TM_BUILD or TC_BUILD leaves in OUT ends in the CRC of all bytes
before it and has residue zero, and CRC_VERIFY_APP on it gives RES1 = 1. -/
def Obligations.FecfLaw : Prop :=
  ∀ (i : Instr) (s t : State), s.params.wf →
    i = .tmBuild ∨ i = .tcBuild → exec i s = .next t → doneFlag t.status = true →
    let r := outputString t
    2 ≤ r.length ∧ crc16 (r.take (r.length - 2)) = be16 (byteAt r (r.length - 2)) (byteAt r (r.length - 1)) ∧
    crc16 r = 0 ∧
    ∀ u : State, u.inLen.toNat ≤ u.params.inCap → inputString u = r →
      ∃ v, exec .crcVerifyApp u = .next v ∧ v.status = 0x00130001 ∧ v.getRes 1 = 1

/-! ## CLCW -/

/-- CLCW_ENC (46_clcw.md R241). -/
def Obligations.ClcwEncResult : Prop :=
  ∀ s : State,
    if 63 < argNat s 0 then failsWith .clcwEnc s 0x00600302 0
    else if 255 < argNat s 1 then failsWith .clcwEnc s 0x00600302 1
    else completes .clcwEnc s 0x00600001 [(0, BitVec.ofNat 32 (argNat s 0 * 2 ^ 18 + argNat s 1))] none none

/-- CLCW_ENC_FULL (46_clcw.md R242, R240, R245): the first field above its maximum, or the packed word. -/
def Obligations.ClcwEncFullResult : Prop :=
  ∀ s : State,
    let max := [1, 3, 7, 3, 63, 1, 1, 1, 1, 1, 3, 255]
    let lowest := [31, 29, 26, 24, 18, 15, 14, 13, 12, 11, 9, 0]
    (∀ k : Fin 16, k.val < 12 → max.getD k.val 0 < argNat s k →
      (∀ j : Fin 16, j.val < k.val → argNat s j ≤ max.getD j.val 0) →
      failsWith .clcwEncFull s 0x00610302 (BitVec.ofNat 32 k.val)) ∧
    ((∀ k : Fin 16, k.val < 12 → argNat s k ≤ max.getD k.val 0) →
      completes .clcwEncFull s 0x00610001
        [(0, BitVec.ofNat 32
          ((List.finRange 12).map (fun k => argNat s (k.castLE (by decide)) * 2 ^ lowest.getD k.val 0)).sum)] none none)

/-- CLCW_DEC and CLCW_NOMINAL (46_clcw.md R243, R244): every field by its bits, and nominal from the status field and
all five flags. -/
def Obligations.ClcwDecodeResult : Prop :=
  ∀ s : State,
    let w := argNat s 0
    let nominal := if w / 2 ^ 26 % 8 = 0 ∧ w / 2 ^ 11 % 32 = 0 then (1 : Word) else 0
    completes .clcwDec s 0x00620001
      [(0, BitVec.ofNat 32 (w / 2 ^ 31)), (1, BitVec.ofNat 32 (w / 2 ^ 29 % 4)), (2, BitVec.ofNat 32 (w / 2 ^ 26 % 8)),
       (3, BitVec.ofNat 32 (w / 2 ^ 24 % 4)), (4, BitVec.ofNat 32 (w / 2 ^ 18 % 64)),
       (5, BitVec.ofNat 32 (w / 2 ^ 15 % 2)), (6, BitVec.ofNat 32 (w / 2 ^ 14 % 2)),
       (7, BitVec.ofNat 32 (w / 2 ^ 13 % 2)), (8, BitVec.ofNat 32 (w / 2 ^ 12 % 2)),
       (9, BitVec.ofNat 32 (w / 2 ^ 11 % 2)), (10, BitVec.ofNat 32 (w / 2 ^ 9 % 4)), (11, BitVec.ofNat 32 (w % 256)),
       (12, nominal)] none none ∧
    completes .clcwNominal s 0x00630001 [(0, nominal)] none none

/-- The CLCW round trip (46_clcw.md R246): CLCW_DEC of the word that a successful CLCW_ENC or CLCW_ENC_FULL left in
RES0 gives the operands back. -/
def Obligations.ClcwRoundTrip : Prop :=
  ∀ s t u : State, u.getArg 0 = t.getRes 0 → doneFlag t.status = true →
    (exec .clcwEnc s = .next t → ∃ v, exec .clcwDec u = .next v ∧
      v.getRes 4 = s.getArg 0 ∧ v.getRes 11 = s.getArg 1 ∧ v.getRes 12 = 1) ∧
    (exec .clcwEncFull s = .next t → ∃ v, exec .clcwDec u = .next v ∧
      ∀ k : Fin 16, k.val < 12 → v.getRes k = s.getArg k)

/-! ## The host bus -/

/-- The block's window (20_memory.md R50, R51): a host address reaches the block exactly at BASE plus an offset. -/
def Obligations.WindowIsBasePlusOffset : Prop :=
  ∀ (addr : Nat) (off : Offset), windowOffset addr = some off ↔ addr = windowAddress off

/-- A bus error (20_memory.md R52, R53, R56): an access that is not legal completes with the error response and
read data 0, changes no state of the block and starts no command. -/
def Obligations.IllegalAccessIsABusError : Prop :=
  ∀ (s : State) (a : Access) (rest : List HostEvent),
    s.pending = .access a :: rest → ¬legalAccess s.params (accessWidth a) (accessOffset a) →
    ∃ f, step s = .next { s with pending := rest, response := .busError f } ∧ readData (.busError f) = 0

/-- A 4-byte read at a register's offset answers that register and has no side effect (10_state.md R21 to R29,
20_memory.md R52, R57). -/
def Obligations.RegisterReadAnswersTheRegister : Prop :=
  ∀ (s : State) (rest : List HostEvent) (off : Offset), s.pending = .access (.read off .four) :: rest →
    let answers := fun v => step s = .next { s with pending := rest, response := .word v }
    (off.toNat = 0x000 → answers s.cmd) ∧ (off.toNat = 0x004 → answers s.status) ∧
    (off.toNat = 0x008 → answers s.errInfo) ∧ (off.toNat = 0x00C → answers s.inLen) ∧
    (off.toNat = 0x010 → answers s.outLen) ∧ (off.toNat = 0x014 → answers (BitVec.ofNat 32 s.params.inCap)) ∧
    (off.toNat = 0x018 → answers (BitVec.ofNat 32 s.params.outCap)) ∧
    (∀ k : Fin 16, off.toNat = 0x040 + 4 * k.val → answers (s.getArg k)) ∧
    (∀ k : Fin 16, off.toNat = 0x080 + 4 * k.val → answers (s.getRes k))

/-- A legal buffer read answers the byte, or four bytes with the lowest index most significant, of IN or of OUT, and
has no side effect (20_memory.md R51, R53, R54, R57). -/
def Obligations.BufferReadIsBigEndian : Prop :=
  ∀ (s : State) (rest : List HostEvent) (off : Offset) (w : Width) (i : Nat) (start cap : Nat) (byte : Nat → Byte),
    (start = 0x10000 ∧ cap = s.params.inCap ∧ byte = s.inByte) ∨
      (start = 0x20000 ∧ cap = s.params.outCap ∧ byte = s.outByte) →
    s.pending = .access (.read off w) :: rest → off.toNat = start + i → i < 0x10000 →
    (w = .one → i < cap →
      step s = .next { s with pending := rest, response := .byte (byte i) }) ∧
    (w = .four → i % 4 = 0 → i + 3 < cap →
      step s = .next { s with pending := rest, response := .word (BitVec.ofNat 32
        ((((byte i).toNat * 256 + (byte (i + 1)).toNat) * 256 + (byte (i + 2)).toNat) * 256 + (byte (i + 3)).toNat)) })

/-- A 4-byte write to a register other than CMD: IN_LEN and the ARG register take the value, and a read-only
register takes nothing; nothing else changes and no command runs (20_memory.md R55, R57; 10_state.md R21). -/
def Obligations.RegisterWriteStoresOrIsIgnored : Prop :=
  ∀ (s : State) (rest : List HostEvent) (r : Reg) (off : Offset) (v : Word), off.toNat = regOffset r →
    s.pending = .access (.writeWord off v) :: rest →
    match r with
    | .cmd => True
    | .inLen => step s = .next { s with pending := rest, response := .written, inLen := v }
    | .arg k => step s = .next { s with pending := rest, response := .written, arg := s.arg.set k.val v }
    | _ => step s = .next { s with pending := rest, response := .written }

/-- A legal write to a buffer window: IN takes the byte, or the four bytes most significant first; a write to OUT is
ignored; nothing else changes (20_memory.md R51, R53, R54, R55). -/
def Obligations.BufferWriteStoresInOnly : Prop :=
  ∀ (s : State) (rest : List HostEvent) (a : Access) (i : Nat) (bs : List Byte),
    s.pending = .access a :: rest → legalAccess s.params (accessWidth a) (accessOffset a) →
    (∃ off b, a = .writeByte off b ∧ bs = [b]) ∨
      (∃ off v, a = .writeWord off v ∧ bs = [v.extractLsb' 24 8, v.extractLsb' 16 8, v.extractLsb' 8 8, v.extractLsb' 0 8]) →
    i < 0x10000 →
    (accessOffset a = 0x10000 + i →
      ∃ t, step s = .next t ∧
        (∀ k, t.inByte k = if i ≤ k ∧ k < i + bs.length then bs.getD (k - i) 0 else s.inByte k) ∧
        t = { s with pending := rest, response := .written, inBuf := t.inBuf }) ∧
    (accessOffset a = 0x20000 + i → step s = .next { s with pending := rest, response := .written })

/-- Only a write to CMD and a reset change the command side: after any other access CMD, STATUS, ERRINFO, OUT_LEN,
RES and OUT are as they were (10_state.md R22, R23, R26; 20_memory.md R57). -/
def Obligations.OnlyCommandsWriteTheReport : Prop :=
  ∀ (s t : State) (a : Access) (rest : List HostEvent),
    s.pending = .access a :: rest → (∀ v, a ≠ .writeWord 0 v) → step s = .next t →
    t.cmd = s.cmd ∧ t.status = s.status ∧ t.errInfo = s.errInfo ∧ t.outLen = s.outLen ∧ t.res = s.res ∧
    t.outBuf = s.outBuf

/-- MOVEOUT (30_encoding.md R95), from any state that satisfies the invariant, has no access waiting, and whose
OUT_LEN bytes fit IN: running its statements makes the input string the output string, byte for byte, and leaves
OUT, OUT_LEN and every other register of the block as they were. -/
def Obligations.MoveOutCopiesOutToIn : Prop :=
  ∀ s : State, s.Inv → s.pending = [] → s.outLen.toNat ≤ s.params.inCap →
    ∃ t, runsTo (expand s .moveOut).length (s.enqueue (expand s .moveOut)) t ∧
      inputString t = outputString s ∧ t.inLen = s.outLen ∧ t.pending = [] ∧
      t.outBuf = s.outBuf ∧ t.outLen = s.outLen ∧ t.cmd = s.cmd ∧ t.status = s.status ∧ t.errInfo = s.errInfo ∧
      t.arg = s.arg ∧ t.res = s.res ∧ t.params = s.params
end

