-- ==== Sys2Proof/Laws/Memory.lean ====
section
/-! SUPPORT. What the buffer operations do: read after write, and the canonical form kept. -/

namespace Sys2Proof.Machine

@[simp] theorem placeAt_nil (i : Nat) : placeAt i [] = [] := rfl

theorem placeAt_index (i : Nat) (bs : List Byte) : ∀ c ∈ placeAt i bs, i ≤ c.1 ∧ c.1 < i + bs.length := by
  induction bs generalizing i with
  | nil => simp
  | cons b bs ih =>
    intro c hc
    simp only [placeAt, List.mem_cons] at hc
    rcases hc with rfl | hc
    · simp
    · have := ih (i + 1) c hc
      simp only [List.length_cons]
      omega

theorem placeAt_rising (i : Nat) (bs : List Byte) : (placeAt i bs).Pairwise (fun a b => a.1 < b.1) := by
  induction bs generalizing i with
  | nil => simp
  | cons b bs ih =>
    simp only [placeAt, List.pairwise_cons]
    exact ⟨fun c hc => Nat.lt_of_succ_le (placeAt_index (i + 1) bs c hc).1, ih (i + 1)⟩

/-- Looking an index up in a placed byte string gives the byte there. -/
theorem placeAt_lookup (i : Nat) (bs : List Byte) (a : Nat) :
    (placeAt i bs).lookup a = if i ≤ a then bs[a - i]? else none := by
  induction bs generalizing i with
  | nil => simp
  | cons b bs ih =>
    rw [placeAt, List.lookup_cons, ih]
    rcases Nat.lt_trichotomy a i with h | rfl | h
    · rw [beq_false_of_ne (by omega), if_neg (by omega), if_neg (by omega)]
    · simp
    · rw [beq_false_of_ne (by omega), if_pos (by omega), if_pos (by omega),
        show a - i = (a - (i + 1)) + 1 by omega, List.getElem?_cons_succ]

theorem lookup_filter_index (l : List Host.Cell) (p : Nat → Bool) (a : Nat) :
    (l.filter (fun c => p c.1)).lookup a = if p a then l.lookup a else none := by
  induction l with
  | nil => simp
  | cons c l ih =>
    obtain ⟨i, b⟩ := c
    rcases eq_or_ne a i with rfl | h
    · by_cases hp : p a = true
      · simp [hp]
      · simp [hp, ih]
    · by_cases hp : p i = true
      · simp [hp, ih, List.lookup_cons, beq_false_of_ne h]
      · simp [hp, ih, List.lookup_cons, beq_false_of_ne h]

/-- Read after write: inside the written string the new byte, elsewhere what was there. -/
theorem Memory.write_written (m : Memory) (i : Nat) (bs : List Byte) (a : Nat) :
    (m.write i bs).written a = if i ≤ a ∧ a < i + bs.length then bs[a - i]? else m.written a := by
  have hlow := lookup_filter_index m.cells (fun n => decide (n < i)) a
  have hhigh := lookup_filter_index m.cells (fun n => decide (i + bs.length ≤ n)) a
  simp only [Memory.written, Memory.write, List.lookup_append, hlow, hhigh, placeAt_lookup, decide_eq_true_eq]
  rcases Nat.lt_or_ge a i with h1 | h1
  · simp [h1, Nat.not_le.mpr h1, show ¬(i + bs.length ≤ a) by omega]
  · rcases Nat.lt_or_ge a (i + bs.length) with h2 | h2
    · simp [h1, h2, Nat.not_lt.mpr h1, Nat.not_le.mpr h2]
    · simp [h1, h2, Nat.not_lt.mpr h1, Nat.not_lt.mpr h2, List.getElem?_eq_none (show bs.length ≤ a - i by omega)]

/-- Writing keeps the canonical form. -/
theorem Memory.write_wf (m : Memory) (i : Nat) (bs : List Byte) (h : m.wf) : (m.write i bs).wf := by
  have hlow : ∀ c ∈ m.cells.filter (fun c => decide (c.1 < i)), c.1 < i := fun c hc => by
    simpa using (List.mem_filter.mp hc).2
  have hhigh : ∀ c ∈ m.cells.filter (fun c => decide (i + bs.length ≤ c.1)), i + bs.length ≤ c.1 := fun c hc => by
    simpa using (List.mem_filter.mp hc).2
  refine List.pairwise_append.mpr ⟨List.pairwise_append.mpr ⟨h.filter _, placeAt_rising i bs, ?_⟩, h.filter _, ?_⟩
  · intro a ha b hb
    have := hlow a ha
    have := placeAt_index i bs b hb
    omega
  · intro a ha b hb
    have hb := hhigh b hb
    rcases List.mem_append.mp ha with ha | ha
    · have := hlow a ha
      omega
    · have := placeAt_index i bs a ha
      omega

/-- Writing inside the capacity keeps every written byte below it. -/
theorem Memory.write_below (m : Memory) (i : Nat) (bs : List Byte) (cap : Nat) (h : m.below cap)
    (hb : i + bs.length ≤ cap ∨ bs = []) : (m.write i bs).below cap := by
  intro c hc
  simp only [Memory.write, List.mem_append, List.mem_filter] at hc
  rcases hc with (hc | hc) | hc
  · exact h c hc.1
  · have := placeAt_index i bs c hc
    rcases hb with hb | rfl
    · omega
    · simp at hc
  · exact h c hc.1

/-- The empty content is in canonical form, as reset leaves both buffers. -/
theorem Memory.empty_wf : Memory.wf ⟨[]⟩ := List.Pairwise.nil

end Sys2Proof.Machine
end

