-- ==== Sys2Proof/Laws/State.lean ====
section
/-! SUPPORT. One lemma per field per named update of State, each true by definition. -/

namespace Sys2Proof.Machine

variable (s : State)

@[simp] theorem State.storeIn_cmd (i : Nat) (bs : List Byte) : (s.storeIn i bs).cmd = s.cmd := rfl
@[simp] theorem State.storeIn_status (i : Nat) (bs : List Byte) : (s.storeIn i bs).status = s.status := rfl
@[simp] theorem State.storeIn_errInfo (i : Nat) (bs : List Byte) : (s.storeIn i bs).errInfo = s.errInfo := rfl
@[simp] theorem State.storeIn_inLen (i : Nat) (bs : List Byte) : (s.storeIn i bs).inLen = s.inLen := rfl
@[simp] theorem State.storeIn_outLen (i : Nat) (bs : List Byte) : (s.storeIn i bs).outLen = s.outLen := rfl
@[simp] theorem State.storeIn_arg (i : Nat) (bs : List Byte) : (s.storeIn i bs).arg = s.arg := rfl
@[simp] theorem State.storeIn_res (i : Nat) (bs : List Byte) : (s.storeIn i bs).res = s.res := rfl
@[simp] theorem State.storeIn_inBuf (i : Nat) (bs : List Byte) : (s.storeIn i bs).inBuf = s.inBuf.write i bs := rfl
@[simp] theorem State.storeIn_outBuf (i : Nat) (bs : List Byte) : (s.storeIn i bs).outBuf = s.outBuf := rfl
@[simp] theorem State.storeIn_params (i : Nat) (bs : List Byte) : (s.storeIn i bs).params = s.params := rfl
@[simp] theorem State.storeIn_epoch (i : Nat) (bs : List Byte) : (s.storeIn i bs).epoch = s.epoch := rfl
@[simp] theorem State.storeIn_pending (i : Nat) (bs : List Byte) : (s.storeIn i bs).pending = s.pending := rfl
@[simp] theorem State.storeIn_response (i : Nat) (bs : List Byte) : (s.storeIn i bs).response = s.response := rfl

@[simp] theorem State.storeOut_cmd (bs : List Byte) : (s.storeOut bs).cmd = s.cmd := rfl
@[simp] theorem State.storeOut_status (bs : List Byte) : (s.storeOut bs).status = s.status := rfl
@[simp] theorem State.storeOut_errInfo (bs : List Byte) : (s.storeOut bs).errInfo = s.errInfo := rfl
@[simp] theorem State.storeOut_inLen (bs : List Byte) : (s.storeOut bs).inLen = s.inLen := rfl
@[simp] theorem State.storeOut_outLen (bs : List Byte) : (s.storeOut bs).outLen = BitVec.ofNat 32 bs.length := rfl
@[simp] theorem State.storeOut_arg (bs : List Byte) : (s.storeOut bs).arg = s.arg := rfl
@[simp] theorem State.storeOut_res (bs : List Byte) : (s.storeOut bs).res = s.res := rfl
@[simp] theorem State.storeOut_inBuf (bs : List Byte) : (s.storeOut bs).inBuf = s.inBuf := rfl
@[simp] theorem State.storeOut_outBuf (bs : List Byte) : (s.storeOut bs).outBuf = s.outBuf.write 0 bs := rfl
@[simp] theorem State.storeOut_params (bs : List Byte) : (s.storeOut bs).params = s.params := rfl
@[simp] theorem State.storeOut_epoch (bs : List Byte) : (s.storeOut bs).epoch = s.epoch := rfl
@[simp] theorem State.storeOut_pending (bs : List Byte) : (s.storeOut bs).pending = s.pending := rfl
@[simp] theorem State.storeOut_response (bs : List Byte) : (s.storeOut bs).response = s.response := rfl

@[simp] theorem State.setArg_cmd (i : Fin 16) (v : Word) : (s.setArg i v).cmd = s.cmd := rfl
@[simp] theorem State.setArg_status (i : Fin 16) (v : Word) : (s.setArg i v).status = s.status := rfl
@[simp] theorem State.setArg_errInfo (i : Fin 16) (v : Word) : (s.setArg i v).errInfo = s.errInfo := rfl
@[simp] theorem State.setArg_inLen (i : Fin 16) (v : Word) : (s.setArg i v).inLen = s.inLen := rfl
@[simp] theorem State.setArg_outLen (i : Fin 16) (v : Word) : (s.setArg i v).outLen = s.outLen := rfl
@[simp] theorem State.setArg_arg (i : Fin 16) (v : Word) : (s.setArg i v).arg = s.arg.set i v := rfl
@[simp] theorem State.setArg_res (i : Fin 16) (v : Word) : (s.setArg i v).res = s.res := rfl
@[simp] theorem State.setArg_inBuf (i : Fin 16) (v : Word) : (s.setArg i v).inBuf = s.inBuf := rfl
@[simp] theorem State.setArg_outBuf (i : Fin 16) (v : Word) : (s.setArg i v).outBuf = s.outBuf := rfl
@[simp] theorem State.setArg_params (i : Fin 16) (v : Word) : (s.setArg i v).params = s.params := rfl
@[simp] theorem State.setArg_epoch (i : Fin 16) (v : Word) : (s.setArg i v).epoch = s.epoch := rfl
@[simp] theorem State.setArg_pending (i : Fin 16) (v : Word) : (s.setArg i v).pending = s.pending := rfl
@[simp] theorem State.setArg_response (i : Fin 16) (v : Word) : (s.setArg i v).response = s.response := rfl

@[simp] theorem State.setResults_cmd (l : List (Fin 16 × Word)) : (s.setResults l).cmd = s.cmd := rfl
@[simp] theorem State.setResults_status (l : List (Fin 16 × Word)) : (s.setResults l).status = s.status := rfl
@[simp] theorem State.setResults_errInfo (l : List (Fin 16 × Word)) : (s.setResults l).errInfo = s.errInfo := rfl
@[simp] theorem State.setResults_inLen (l : List (Fin 16 × Word)) : (s.setResults l).inLen = s.inLen := rfl
@[simp] theorem State.setResults_outLen (l : List (Fin 16 × Word)) : (s.setResults l).outLen = s.outLen := rfl
@[simp] theorem State.setResults_arg (l : List (Fin 16 × Word)) : (s.setResults l).arg = s.arg := rfl
@[simp] theorem State.setResults_res (l : List (Fin 16 × Word)) : (s.setResults l).res = Vector.ofFn (fun k => (l.lookup k).getD (s.getRes k)) := rfl
@[simp] theorem State.setResults_inBuf (l : List (Fin 16 × Word)) : (s.setResults l).inBuf = s.inBuf := rfl
@[simp] theorem State.setResults_outBuf (l : List (Fin 16 × Word)) : (s.setResults l).outBuf = s.outBuf := rfl
@[simp] theorem State.setResults_params (l : List (Fin 16 × Word)) : (s.setResults l).params = s.params := rfl
@[simp] theorem State.setResults_epoch (l : List (Fin 16 × Word)) : (s.setResults l).epoch = s.epoch := rfl
@[simp] theorem State.setResults_pending (l : List (Fin 16 × Word)) : (s.setResults l).pending = s.pending := rfl
@[simp] theorem State.setResults_response (l : List (Fin 16 × Word)) : (s.setResults l).response = s.response := rfl

@[simp] theorem State.report_cmd (status errInfo : Word) : (s.report status errInfo).cmd = s.cmd := rfl
@[simp] theorem State.report_status (status errInfo : Word) : (s.report status errInfo).status = status := rfl
@[simp] theorem State.report_errInfo (status errInfo : Word) : (s.report status errInfo).errInfo = errInfo := rfl
@[simp] theorem State.report_inLen (status errInfo : Word) : (s.report status errInfo).inLen = s.inLen := rfl
@[simp] theorem State.report_outLen (status errInfo : Word) : (s.report status errInfo).outLen = s.outLen := rfl
@[simp] theorem State.report_arg (status errInfo : Word) : (s.report status errInfo).arg = s.arg := rfl
@[simp] theorem State.report_res (status errInfo : Word) : (s.report status errInfo).res = s.res := rfl
@[simp] theorem State.report_inBuf (status errInfo : Word) : (s.report status errInfo).inBuf = s.inBuf := rfl
@[simp] theorem State.report_outBuf (status errInfo : Word) : (s.report status errInfo).outBuf = s.outBuf := rfl
@[simp] theorem State.report_params (status errInfo : Word) : (s.report status errInfo).params = s.params := rfl
@[simp] theorem State.report_epoch (status errInfo : Word) : (s.report status errInfo).epoch = s.epoch := rfl
@[simp] theorem State.report_pending (status errInfo : Word) : (s.report status errInfo).pending = s.pending := rfl
@[simp] theorem State.report_response (status errInfo : Word) : (s.report status errInfo).response = s.response := rfl

@[simp] theorem State.respond_cmd (r : Response) : (s.respond r).cmd = s.cmd := rfl
@[simp] theorem State.respond_status (r : Response) : (s.respond r).status = s.status := rfl
@[simp] theorem State.respond_errInfo (r : Response) : (s.respond r).errInfo = s.errInfo := rfl
@[simp] theorem State.respond_inLen (r : Response) : (s.respond r).inLen = s.inLen := rfl
@[simp] theorem State.respond_outLen (r : Response) : (s.respond r).outLen = s.outLen := rfl
@[simp] theorem State.respond_arg (r : Response) : (s.respond r).arg = s.arg := rfl
@[simp] theorem State.respond_res (r : Response) : (s.respond r).res = s.res := rfl
@[simp] theorem State.respond_inBuf (r : Response) : (s.respond r).inBuf = s.inBuf := rfl
@[simp] theorem State.respond_outBuf (r : Response) : (s.respond r).outBuf = s.outBuf := rfl
@[simp] theorem State.respond_params (r : Response) : (s.respond r).params = s.params := rfl
@[simp] theorem State.respond_epoch (r : Response) : (s.respond r).epoch = s.epoch := rfl
@[simp] theorem State.respond_pending (r : Response) : (s.respond r).pending = s.pending := rfl
@[simp] theorem State.respond_response (r : Response) : (s.respond r).response = r := rfl

@[simp] theorem State.withPending_cmd (rest : List HostEvent) : (s.withPending rest).cmd = s.cmd := rfl
@[simp] theorem State.withPending_status (rest : List HostEvent) : (s.withPending rest).status = s.status := rfl
@[simp] theorem State.withPending_errInfo (rest : List HostEvent) : (s.withPending rest).errInfo = s.errInfo := rfl
@[simp] theorem State.withPending_inLen (rest : List HostEvent) : (s.withPending rest).inLen = s.inLen := rfl
@[simp] theorem State.withPending_outLen (rest : List HostEvent) : (s.withPending rest).outLen = s.outLen := rfl
@[simp] theorem State.withPending_arg (rest : List HostEvent) : (s.withPending rest).arg = s.arg := rfl
@[simp] theorem State.withPending_res (rest : List HostEvent) : (s.withPending rest).res = s.res := rfl
@[simp] theorem State.withPending_inBuf (rest : List HostEvent) : (s.withPending rest).inBuf = s.inBuf := rfl
@[simp] theorem State.withPending_outBuf (rest : List HostEvent) : (s.withPending rest).outBuf = s.outBuf := rfl
@[simp] theorem State.withPending_params (rest : List HostEvent) : (s.withPending rest).params = s.params := rfl
@[simp] theorem State.withPending_epoch (rest : List HostEvent) : (s.withPending rest).epoch = s.epoch := rfl
@[simp] theorem State.withPending_pending (rest : List HostEvent) : (s.withPending rest).pending = rest := rfl
@[simp] theorem State.withPending_response (rest : List HostEvent) : (s.withPending rest).response = s.response := rfl

@[simp] theorem State.applyReset_cmd : s.applyReset.cmd = 0 := rfl
@[simp] theorem State.applyReset_status : s.applyReset.status = 0 := rfl
@[simp] theorem State.applyReset_errInfo : s.applyReset.errInfo = 0 := rfl
@[simp] theorem State.applyReset_inLen : s.applyReset.inLen = 0 := rfl
@[simp] theorem State.applyReset_outLen : s.applyReset.outLen = 0 := rfl
@[simp] theorem State.applyReset_arg : s.applyReset.arg = Vector.replicate 16 0 := rfl
@[simp] theorem State.applyReset_res : s.applyReset.res = Vector.replicate 16 0 := rfl
@[simp] theorem State.applyReset_inBuf : s.applyReset.inBuf = ⟨[]⟩ := rfl
@[simp] theorem State.applyReset_outBuf : s.applyReset.outBuf = ⟨[]⟩ := rfl
@[simp] theorem State.applyReset_params : s.applyReset.params = s.params := rfl
@[simp] theorem State.applyReset_epoch : s.applyReset.epoch = s.epoch + 1 := rfl
@[simp] theorem State.applyReset_pending : s.applyReset.pending = s.pending := rfl
@[simp] theorem State.applyReset_response : s.applyReset.response = .none := rfl

end Sys2Proof.Machine
end

