-- ==== Sys2Proof/Laws/Commands.lean ====
section
/-! SUPPORT. What the shared operations of a command do, once: the checks, the committed writes, the error exit,
and the inversion of `exec`. -/

namespace Sys2Proof.Machine

/-! Reading after the named updates -/

@[simp] theorem getRes_setResults (s : State) (l : List (Fin 16 × Word)) (k : Fin 16) :
    (s.setResults l).getRes k = (l.lookup k).getD (s.getRes k) := by
  simp [State.setResults, State.getRes]

theorem getArg_setArg (s : State) (i k : Fin 16) (v : Word) :
    (s.setArg i v).getArg k = if k = i then v else s.getArg k := by
  by_cases h : k = i
  · subst h; simp [State.setArg, State.getArg]
  · have : i.val ≠ k.val := fun e => h (Fin.ext e.symm)
    simp [State.setArg, State.getArg, h, this]

theorem inByte_storeIn (s : State) (i : Nat) (bs : List Byte) (a : Nat) :
    (s.storeIn i bs).inByte a = if i ≤ a ∧ a < i + bs.length then byteAt bs (a - i) else s.inByte a := by
  simp only [State.inByte, State.storeIn, Memory.write_written]
  split
  · rename_i h
    rw [List.getElem?_eq_getElem (by omega)]
    simp [byteAt, List.getElem?_eq_getElem (show a - i < bs.length by omega)]
  · rfl

theorem inByte_storeIn_zero (s : State) (bs : List Byte) (a : Nat) :
    (s.storeIn 0 bs).inByte a = bs[a]?.getD (s.inByte a) := by
  rw [inByte_storeIn]
  by_cases h : a < bs.length
  · rw [if_pos (by omega)]
    simp [byteAt, h]
  · rw [if_neg (by omega), List.getElem?_eq_none (by omega), Option.getD_none]

theorem outByte_storeOut (s : State) (bs : List Byte) (a : Nat) :
    (s.storeOut bs).outByte a = bs[a]?.getD (s.outByte a) := by
  simp only [State.outByte, State.storeOut, Memory.write_written]
  by_cases h : a < bs.length
  · rw [if_pos (by omega)]
    simp [h]
  · rw [if_neg (by omega), List.getElem?_eq_none (by omega), Option.getD_none]

/-! The input string (30_encoding.md R85) -/

@[simp] theorem inputString_length (s : State) : (inputString s).length = s.inLen.toNat := by
  simp [inputString]

theorem inputString_byteAt (s : State) (i : Nat) (h : i < s.inLen.toNat) : byteAt (inputString s) i = s.inByte i := by
  simp [byteAt, inputString, h]

/-- The input string depends on IN_LEN and the first IN_LEN bytes of IN only. -/
theorem inputString_congr (s t : State) (hl : s.inLen = t.inLen) (hb : ∀ a < s.inLen.toNat, s.inByte a = t.inByte a) :
    inputString s = inputString t := by
  unfold inputString
  rw [← hl]
  exact List.map_congr_left fun a ha => hb a (List.mem_range.mp ha)

@[simp] theorem outputString_length (s : State) : (outputString s).length = s.outLen.toNat := by
  simp [outputString]

/-! The checks -/

@[simp] theorem require_pos {c : Prop} [Decidable c] (h : c) (code : ErrCode) (info : Word) :
    require c code info = .ok () := if_pos h

@[simp] theorem require_neg {c : Prop} [Decidable c] (h : ¬c) (code : ErrCode) (info : Word) :
    require c code info = .error ⟨code, info⟩ := if_neg h

/-- A check followed by the rest of a body: the rest where the check holds, else its error. -/
theorem require_bind {α : Type} (c : Prop) [Decidable c] (code : ErrCode) (info : Word)
    (f : Unit → Except CmdError α) :
    (require c code info >>= f) = if c then f () else .error ⟨code, info⟩ := by
  by_cases h : c
  · rw [require_pos h, if_pos h]; rfl
  · rw [require_neg h, if_neg h]; rfl

/-- The same with the error first, as the spec's pseudocode writes its bounds. -/
theorem require_le_bind {α : Type} (a b : Nat) (code : ErrCode) (info : Word) (f : Unit → Except CmdError α) :
    (require (a ≤ b) code info >>= f) = if b < a then .error ⟨code, info⟩ else f () := by
  rw [require_bind]
  by_cases h : a ≤ b
  · rw [if_pos h, if_neg (by omega)]
  · rw [if_neg h, if_pos (by omega)]

/-- A result follows a check exactly when the check holds and the rest gives that result. -/
theorem bind_eq_ok {α β : Type} (x : Except CmdError α) (f : α → Except CmdError β) (b : β) :
    (x >>= f) = .ok b ↔ ∃ a, x = .ok a ∧ f a = .ok b := by
  cases x with
  | error e => exact ⟨fun h => (nomatch h), fun ⟨a, h, _⟩ => (nomatch h)⟩
  | ok a => exact ⟨fun h => ⟨a, rfl, h⟩, fun ⟨a', h, h'⟩ => Except.ok.inj h ▸ h'⟩

theorem require_eq_ok {c : Prop} [Decidable c] {code : ErrCode} {info : Word} {u : Unit} :
    require c code info = .ok u ↔ c := by
  by_cases h : c
  · simp [h]
  · simp [h]

/-- The operand checks pass exactly when every listed operand is in range. -/
theorem requireArgs_eq_ok (s : State) (l : List (Fin 16 × Nat)) :
    requireArgs s l = .ok () ↔ ∀ p ∈ l, argNat s p.1 ≤ p.2 := by
  induction l with
  | nil => simp [requireArgs]
  | cons p l ih =>
    obtain ⟨i, max⟩ := p
    rw [requireArgs, bind_eq_ok]
    simp [requireArg, require_eq_ok, ih]

/-- The operand checks in the order of the spec's pseudocode: the first operand out of range raises. -/
theorem requireArgs_cons_bind {α : Type} (s : State) (i : Fin 16) (max : Nat) (l : List (Fin 16 × Nat))
    (f : Unit → Except CmdError α) :
    (requireArgs s ((i, max) :: l) >>= f) =
      if max < argNat s i then .error ⟨.outOfRange, BitVec.ofNat 32 i.val⟩ else (requireArgs s l >>= f) := by
  rw [requireArgs, bind_assoc, requireArg, require_le_bind]

@[simp] theorem requireArgs_nil_bind {α : Type} (s : State) (f : Unit → Except CmdError α) :
    (requireArgs s [] >>= f) = f () := rfl

/-! The end of a command -/

@[simp] theorem inByte_setResults (s : State) (l : List (Fin 16 × Word)) (a : Nat) :
    (s.setResults l).inByte a = s.inByte a := rfl

@[simp] theorem outByte_setResults (s : State) (l : List (Fin 16 × Word)) (a : Nat) :
    (s.setResults l).outByte a = s.outByte a := rfl

@[simp] theorem inByte_storeOut (s : State) (bs : List Byte) (a : Nat) : (s.storeOut bs).inByte a = s.inByte a := rfl

@[simp] theorem outByte_storeIn (s : State) (i : Nat) (bs : List Byte) (a : Nat) :
    (s.storeIn i bs).outByte a = s.outByte a := rfl

@[simp] theorem getRes_storeOut (s : State) (bs : List Byte) (k : Fin 16) : (s.storeOut bs).getRes k = s.getRes k := rfl

@[simp] theorem getRes_storeIn (s : State) (i : Nat) (bs : List Byte) (k : Fin 16) :
    (s.storeIn i bs).getRes k = s.getRes k := rfl

theorem commitWrites_getRes (s : State) (w : Writes) (k : Fin 16) :
    (s.commitWrites w).getRes k = (w.results.lookup k).getD (s.getRes k) := by
  obtain ⟨results, _ | r, _ | x⟩ := w <;> simp [State.commitWrites]

theorem commitWrites_outLen (s : State) (w : Writes) :
    (s.commitWrites w).outLen = (match w.output with | some r => BitVec.ofNat 32 r.length | none => s.outLen) := by
  obtain ⟨results, _ | r, _ | x⟩ := w <;> simp [State.commitWrites]

theorem commitWrites_outByte (s : State) (w : Writes) (a : Nat) :
    (s.commitWrites w).outByte a = (match w.output with | some r => r[a]?.getD (s.outByte a) | none => s.outByte a) := by
  obtain ⟨results, _ | r, _ | x⟩ := w <;> simp [State.commitWrites, outByte_storeOut]

theorem commitWrites_inByte (s : State) (w : Writes) (a : Nat) :
    (s.commitWrites w).inByte a = (match w.input with | some r => r[a]?.getD (s.inByte a) | none => s.inByte a) := by
  obtain ⟨results, _ | r, _ | x⟩ := w <;> simp [State.commitWrites, inByte_storeIn_zero]

/-- Committing pending writes leaves what no command writes. -/
theorem commitWrites_hostSideKept (s : State) (w : Writes) : hostSideKept s (s.commitWrites w) := by
  obtain ⟨results, _ | r, _ | x⟩ := w <;> simp [State.commitWrites, hostSideKept, State.getArg]

/-- What a successful command does, with every other location unchanged. -/
theorem complete_effect (s : State) (op : Byte) (w : Writes) :
    commandEffect s (s.complete op w) (statusDone op) w.results w.output w.input :=
  ⟨rfl, rfl, commitWrites_getRes s w, commitWrites_outLen s w, commitWrites_outByte s w, commitWrites_inByte s w,
    commitWrites_hostSideKept s w⟩

/-- The body of each operation, as its arm of `exec` runs it. -/
def commandBody : Instr → State → Except CmdError Writes
  | .crcCalc => crcCalcBody
  | .crcVerify => crcVerifyBody
  | .crcAppend => crcAppendBody
  | .crcVerifyApp => crcVerifyAppBody
  | .parCalc => parCalcBody
  | .parVerify => parVerifyBody
  | .cltuEnc => cltuEncBody
  | .cltuDec => cltuDecBody
  | .cltuSize => cltuSizeBody
  | .cltuBlocks => cltuBlocksBody
  | .scrRand => scrCopyBody
  | .scrRandIp => scrInPlaceBody
  | .scrDerand => scrCopyBody
  | .scrDerandIp => scrInPlaceBody
  | .scrSeq => scrSeqBody
  | .fhParse => fhParseBody
  | .fhScid => fhScidBody
  | .fhVcid => fhVcidBody
  | .fhCount => fhCountBody
  | .fhValid => fhValidBody
  | .fhIsCmd => fhIsCmdBody
  | .fhIsTm => fhIsTmBody
  | .fhBuild => fhBuildBody
  | .tmBuild => tmBuildBody
  | .tcBuild => tcBuildBody
  | .clcwEnc => clcwEncBody
  | .clcwEncFull => clcwEncFullBody
  | .clcwDec => clcwDecBody
  | .clcwNominal => clcwNominalBody

/-- Every operation is the command cycle around its body. -/
theorem exec_eq_runCommand (i : Instr) (s : State) : exec i s = runCommand i (commandBody i s) s := by
  cases i <;> rfl

/-- All that an operation can do: commit its writes, or fail with an error and change only STATUS and ERRINFO. -/
theorem exec_next_cases (i : Instr) (s t : State) (h : exec i s = .next t) :
    (∃ w, commandBody i s = .ok w ∧ t = s.complete i.opcode w) ∨
    (∃ e, commandBody i s = .error e ∧ t = s.takeError i.opcode e) := by
  rw [exec_eq_runCommand] at h
  cases hb : commandBody i s with
  | ok w => exact .inl ⟨w, rfl, by rw [hb] at h; exact (Host.Outcome.next.inj h).symm⟩
  | error e => exact .inr ⟨e, rfl, by rw [hb] at h; exact (Host.Outcome.next.inj h).symm⟩

/-- An operation whose body gives these writes completes with them. -/
theorem completes_of_body {i : Instr} {s : State} {w : Writes} (h : commandBody i s = .ok w) {status : Word}
    (hs : statusDone i.opcode = status) : completes i s status w.results w.output w.input :=
  hs ▸ ⟨_, by rw [exec_eq_runCommand, h]; rfl, complete_effect s i.opcode w⟩

/-- An operation whose body raises fails with that error. -/
theorem failsWith_of_body {i : Instr} {s : State} {code : ErrCode} {info : Word}
    (h : commandBody i s = .error ⟨code, info⟩) {status : Word} (hs : statusFailed i.opcode code.toByte = status) :
    failsWith i s status info := by
  subst hs
  unfold failsWith
  rw [exec_eq_runCommand, h]
  rfl

/-! STATUS -/

theorem doneFlag_statusDone (op : Byte) : doneFlag (statusDone op) = true := by
  simp [doneFlag, statusDone]

theorem errFlag_statusDone (op : Byte) : errFlag (statusDone op) = false := by
  simp [errFlag, statusDone]

theorem doneFlag_statusFailed (op code : Byte) : doneFlag (statusFailed op code) = false := by
  simp [doneFlag, statusFailed]

theorem errFlag_statusFailed (op code : Byte) : errFlag (statusFailed op code) = true := by
  simp [errFlag, statusFailed]

end Sys2Proof.Machine
end

