-- ==== Sys2Proof/Laws/Bodies.lean ====
section
/-! SUPPORT. Each operation's body as one chain of checks: which error it raises first, and its writes otherwise. -/

namespace Sys2Proof.Machine

variable (s : State)

theorem crcCalcBody_eq : crcCalcBody s =
    if s.params.inCap < s.inLen.toNat then .error ⟨.inLenInvalid, s.inLen⟩
    else .ok { results := [(0, (crc16 (inputString s)).setWidth 32)] } := by
  rw [crcCalcBody, requireInput, require_le_bind]; rfl

theorem crcVerifyBody_eq : crcVerifyBody s =
    if s.params.inCap < s.inLen.toNat then .error ⟨.inLenInvalid, s.inLen⟩
    else if 0xFFFF < argNat s 0 then .error ⟨.outOfRange, 0⟩
    else .ok { results := [(0, (crc16 (inputString s)).setWidth 32),
      (1, boolWord ((crc16 (inputString s)).setWidth 32 == s.getArg 0))] } := by
  rw [crcVerifyBody, requireInput, require_le_bind, requireArg, require_le_bind]; rfl

theorem crcAppendBody_eq : crcAppendBody s =
    if s.params.inCap < s.inLen.toNat then .error ⟨.inLenInvalid, s.inLen⟩
    else if s.params.outCap < s.inLen.toNat + 2 then .error ⟨.outOverflow, BitVec.ofNat 32 (s.inLen.toNat + 2)⟩
    else .ok { results := [(0, (crc16 (inputString s)).setWidth 32)],
               output := some (inputString s ++ bytes16 (crc16 (inputString s))) } := by
  rw [crcAppendBody, requireInput, require_le_bind, requireRoom, require_le_bind]; rfl

theorem crcVerifyAppBody_eq : crcVerifyAppBody s =
    if s.params.inCap < s.inLen.toNat then .error ⟨.inLenInvalid, s.inLen⟩
    else if s.inLen.toNat < 2 then .ok { results := [(0, 0), (1, 0)] }
    else .ok { results := [(0, (crc16 ((inputString s).take (s.inLen.toNat - 2))).setWidth 32),
      (1, boolWord (crc16 ((inputString s).take (s.inLen.toNat - 2)) ==
        be16 (byteAt (inputString s) (s.inLen.toNat - 2)) (byteAt (inputString s) (s.inLen.toNat - 1))))] } := by
  rw [crcVerifyAppBody, requireInput, require_le_bind]; rfl

theorem parCalcBody_eq : parCalcBody s =
    if s.params.inCap < s.inLen.toNat then .error ⟨.inLenInvalid, s.inLen⟩
    else .ok { results := [(0, (parity (inputString s)).setWidth 32)] } := by
  rw [parCalcBody, requireInput, require_le_bind]; rfl

theorem parVerifyBody_eq : parVerifyBody s =
    if s.params.inCap < s.inLen.toNat then .error ⟨.inLenInvalid, s.inLen⟩
    else if 65535 < argNat s 0 then .error ⟨.outOfRange, 0⟩
    else if s.inLen.toNat < argNat s 0 + 1 then .error ⟨.shortInput, BitVec.ofNat 32 (argNat s 0 + 1)⟩
    else .ok { results := [(0, (parity ((inputString s).take (argNat s 0))).setWidth 32),
      (1, boolWord (byteAt (inputString s) (argNat s 0) == parity ((inputString s).take (argNat s 0))))] } := by
  simp only [parVerifyBody, requireInput, requireArg, requireLength, require_le_bind]; rfl

theorem cltuEncBody_eq : cltuEncBody s =
    if s.params.inCap < s.inLen.toNat then .error ⟨.inLenInvalid, s.inLen⟩
    else if s.params.outCap < (cltuEncode (inputString s)).length then
      .error ⟨.outOverflow, BitVec.ofNat 32 (cltuEncode (inputString s)).length⟩
    else .ok { results := [(0, BitVec.ofNat 32 (ceilDiv (inputString s).length 7))],
               output := some (cltuEncode (inputString s)) } := by
  simp only [cltuEncBody, requireInput, requireRoom, require_le_bind]; rfl

theorem cltuDecBody_eq : cltuDecBody s =
    if s.params.inCap < s.inLen.toNat then .error ⟨.inLenInvalid, s.inLen⟩
    else
      match cltuDecode (inputString s) (argNat s 0) with
      | .error e => .error e
      | .ok (data, n) =>
        if s.params.outCap < data.length then .error ⟨.outOverflow, BitVec.ofNat 32 data.length⟩
        else .ok { results := [(0, BitVec.ofNat 32 n)], output := some data } := by
  rw [cltuDecBody, requireInput, require_le_bind]
  congr 1
  cases cltuDecode (inputString s) (argNat s 0) with
  | error e => rfl
  | ok d => exact require_le_bind d.1.length s.params.outCap _ _ _

theorem cltuSizeBody_eq : cltuSizeBody s =
    if 0x00FFFFFF < argNat s 0 then .error ⟨.outOfRange, 0⟩
    else .ok { results := [(0, BitVec.ofNat 32 (2 + 8 * ceilDiv (argNat s 0) 7 + 7))] } := by
  rw [cltuSizeBody, requireArg, require_le_bind]; rfl

theorem scrCopyBody_eq : scrCopyBody s =
    if s.params.inCap < s.inLen.toNat then .error ⟨.inLenInvalid, s.inLen⟩
    else if s.params.outCap < s.inLen.toNat then .error ⟨.outOverflow, BitVec.ofNat 32 s.inLen.toNat⟩
    else .ok { output := some (scramble (inputString s)) } := by
  rw [scrCopyBody, requireInput, require_le_bind, requireRoom, require_le_bind]; rfl

theorem scrInPlaceBody_eq : scrInPlaceBody s =
    if s.params.inCap < s.inLen.toNat then .error ⟨.inLenInvalid, s.inLen⟩
    else .ok { input := some (scramble (inputString s)) } := by
  rw [scrInPlaceBody, requireInput, require_le_bind]; rfl

theorem scrSeqBody_eq : scrSeqBody s =
    if s.params.outCap < argNat s 0 then .error ⟨.outOverflow, BitVec.ofNat 32 (argNat s 0)⟩
    else .ok { output := some (scrSeq (argNat s 0)) } := by
  rw [scrSeqBody, requireRoom, require_le_bind]; rfl

theorem fhParseBody_eq : fhParseBody s =
    if s.params.inCap < s.inLen.toNat then .error ⟨.inLenInvalid, s.inLen⟩
    else if s.inLen.toNat < 6 then .error ⟨.shortInput, 6⟩
    else .ok { results :=
      [(0, headerVersion (inputString s)), (1, headerScid (inputString s)), (2, headerVcid (inputString s)),
       (3, headerOcf (inputString s)), (4, headerMc (inputString s)), (5, headerVc (inputString s)),
       (6, headerDfs (inputString s)), (7, headerCount (inputString s)), (8, headerIsCommand (inputString s)),
       (9, headerIsTelemetry (inputString s))] } := by
  rw [fhParseBody, requireInput, require_le_bind, requireLength, require_le_bind]; rfl

theorem fhScidBody_eq : fhScidBody s =
    if s.params.inCap < s.inLen.toNat then .error ⟨.inLenInvalid, s.inLen⟩
    else if s.inLen.toNat < 2 then .error ⟨.shortInput, 2⟩
    else .ok { results := [(0, headerScid (inputString s))] } := by
  rw [fhScidBody, requireInput, require_le_bind, requireLength, require_le_bind]; rfl

theorem fhVcidBody_eq : fhVcidBody s =
    if s.params.inCap < s.inLen.toNat then .error ⟨.inLenInvalid, s.inLen⟩
    else if s.inLen.toNat < 2 then .error ⟨.shortInput, 2⟩
    else .ok { results := [(0, headerVcid (inputString s))] } := by
  rw [fhVcidBody, requireInput, require_le_bind, requireLength, require_le_bind]; rfl

theorem fhCountBody_eq : fhCountBody s =
    if s.params.inCap < s.inLen.toNat then .error ⟨.inLenInvalid, s.inLen⟩
    else if s.inLen.toNat < 4 then .error ⟨.shortInput, 4⟩
    else .ok { results := [(0, headerCount (inputString s))] } := by
  rw [fhCountBody, requireInput, require_le_bind, requireLength, require_le_bind]; rfl

theorem fhValidBody_eq : fhValidBody s =
    if s.params.inCap < s.inLen.toNat then .error ⟨.inLenInvalid, s.inLen⟩
    else .ok { results :=
      [(0, boolWord (decide (6 ≤ s.inLen.toNat) && (headerVersion (inputString s) == 0)))] } := by
  rw [fhValidBody, requireInput, require_le_bind]; rfl

theorem fhIsCmdBody_eq : fhIsCmdBody s =
    if s.params.inCap < s.inLen.toNat then .error ⟨.inLenInvalid, s.inLen⟩
    else if s.inLen.toNat < 6 then .error ⟨.shortInput, 6⟩
    else .ok { results := [(0, headerIsCommand (inputString s))] } := by
  rw [fhIsCmdBody, requireInput, require_le_bind, requireLength, require_le_bind]; rfl

theorem fhIsTmBody_eq : fhIsTmBody s =
    if s.params.inCap < s.inLen.toNat then .error ⟨.inLenInvalid, s.inLen⟩
    else if s.inLen.toNat < 6 then .error ⟨.shortInput, 6⟩
    else .ok { results := [(0, headerIsTelemetry (inputString s))] } := by
  rw [fhIsTmBody, requireInput, require_le_bind, requireLength, require_le_bind]; rfl

theorem fhBuildBody_eq : fhBuildBody s =
    if 1023 < argNat s 0 then .error ⟨.outOfRange, 0⟩
    else if 7 < argNat s 1 then .error ⟨.outOfRange, 1⟩
    else if 65535 < argNat s 2 then .error ⟨.outOfRange, 2⟩
    else if 0xFFFF < argNat s 3 then .error ⟨.outOfRange, 3⟩
    else if 1 < argNat s 4 then .error ⟨.outOfRange, 4⟩
    else if s.params.outCap < 6 then .error ⟨.outOverflow, 6⟩
    else .ok { output := some (header (s.getArg 0) (s.getArg 1) (s.getArg 2) (s.getArg 3) (s.getArg 4)) } := by
  simp only [fhBuildBody, requireArgs_cons_bind, requireArgs_nil_bind, requireRoom, require_le_bind]; rfl

/-- The frame of TM_BUILD before its FECF. -/
theorem tmBuildBody_eq : tmBuildBody s =
    if s.params.inCap < s.inLen.toNat then .error ⟨.inLenInvalid, s.inLen⟩
    else if 1023 < argNat s 0 then .error ⟨.outOfRange, 0⟩
    else if 7 < argNat s 1 then .error ⟨.outOfRange, 1⟩
    else if 65535 < argNat s 2 then .error ⟨.outOfRange, 2⟩
    else if 0xFFFF < argNat s 3 then .error ⟨.outOfRange, 3⟩
    else if 1 < argNat s 4 then .error ⟨.outOfRange, 4⟩
    else if frameSize s < 6 + 4 * argNat s 4 + 2 + 1 then .error ⟨.outOfRange, 6⟩
    else if s.params.outCap < frameSize s then .error ⟨.outOverflow, BitVec.ofNat 32 (frameSize s)⟩
    else
      let f := frameBody (header (s.getArg 0) (s.getArg 1) (s.getArg 2) (s.getArg 3) (s.getArg 4)) (inputString s)
        (frameSize s - 6 - 4 * argNat s 4 - 2) (if argNat s 4 = 1 then bytes32 (s.getArg 5) else [])
      .ok { results := [(0, (crc16 f).setWidth 32)], output := some (withFecf f) } := by
  simp only [tmBuildBody, requireInput, requireArgs_cons_bind, requireArgs_nil_bind, requireRoom, require_le_bind]; rfl

theorem tcBuildBody_eq : tcBuildBody s =
    if s.params.inCap < s.inLen.toNat then .error ⟨.inLenInvalid, s.inLen⟩
    else if 1023 < argNat s 0 then .error ⟨.outOfRange, 0⟩
    else if 7 < argNat s 1 then .error ⟨.outOfRange, 1⟩
    else if 65535 < argNat s 2 then .error ⟨.outOfRange, 2⟩
    else if 0xFFFF < argNat s 3 then .error ⟨.outOfRange, 3⟩
    else if frameSize s < 9 then .error ⟨.outOfRange, 6⟩
    else if s.params.outCap < frameSize s then .error ⟨.outOverflow, BitVec.ofNat 32 (frameSize s)⟩
    else
      let f := frameBody (header (s.getArg 0) (s.getArg 1) (s.getArg 2) (s.getArg 3) 0) (inputString s)
        (frameSize s - 8) []
      .ok { results := [(0, (crc16 f).setWidth 32)], output := some (withFecf f) } := by
  simp only [tcBuildBody, requireInput, requireArgs_cons_bind, requireArgs_nil_bind, requireRoom, require_le_bind]; rfl

theorem clcwEncBody_eq : clcwEncBody s =
    if 63 < argNat s 0 then .error ⟨.outOfRange, 0⟩
    else if 255 < argNat s 1 then .error ⟨.outOfRange, 1⟩
    else .ok { results := [(0, (s.getArg 0 <<< 18) ||| s.getArg 1)] } := by
  simp only [clcwEncBody, requireArgs_cons_bind, requireArgs_nil_bind]; rfl

/-- The operand checks raise exactly when some listed operand is out of range, and then for the first such. -/
theorem requireArgs_error (l : List (Fin 16 × Nat)) (e : CmdError) (h : requireArgs s l = .error e) :
    ∃ before i max after, l = before ++ (i, max) :: after ∧ (∀ p ∈ before, argNat s p.1 ≤ p.2) ∧ max < argNat s i ∧
      e = ⟨.outOfRange, BitVec.ofNat 32 i.val⟩ := by
  induction l with
  | nil => cases h
  | cons p l ih =>
    obtain ⟨i, max⟩ := p
    rw [requireArgs, requireArg, require_le_bind] at h
    split at h
    · rename_i hlt
      exact ⟨[], i, max, l, rfl, by simp, hlt, (Except.error.inj h).symm⟩
    · rename_i hle
      obtain ⟨before, j, m, after, hl, hb, hm, he⟩ := ih h
      refine ⟨(i, max) :: before, j, m, after, by rw [hl]; rfl, ?_, hm, he⟩
      intro p hp
      rcases List.mem_cons.mp hp with rfl | hp
      · exact Nat.not_lt.mp hle
      · exact hb p hp

theorem clcwEncFullBody_eq : clcwEncFullBody s =
    match requireArgs s [(0, 1), (1, 3), (2, 7), (3, 3), (4, 63), (5, 1), (6, 1), (7, 1), (8, 1), (9, 1), (10, 3), (11, 255)] with
    | .error e => .error e
    | .ok _ => .ok { results := [(0, clcwPack (clcwArgs.map s.getArg))] } := by
  have hl : List.zipWith (fun k (f : Nat × Nat) => (k, 2 ^ f.2 - 1)) clcwArgs clcwFields =
      [(0, 1), (1, 3), (2, 7), (3, 3), (4, 63), (5, 1), (6, 1), (7, 1), (8, 1), (9, 1), (10, 3), (11, 255)] := by decide
  rw [clcwEncFullBody, hl]
  generalize requireArgs s _ = x
  cases x <;> rfl

end Sys2Proof.Machine
end

