-- ==== Sys2Proof/Laws/Bus.lean ====
section
/-! SUPPORT. What the address map, one host access and one step do, once. -/

namespace Sys2Proof.Machine

/-! The register window -/

theorem regOffset_lt (r : Reg) : regOffset r < 0x10000 := by
  cases r <;> simp only [regOffset] <;> omega

theorem regOffset_aligned (r : Reg) : regOffset r % 4 = 0 := by
  cases r <;> simp only [regOffset] <;> omega

/-- The registers stand at their offsets. -/
theorem regAt_regOffset (r : Reg) : regAt (regOffset r) = some r := by
  cases r with
  | arg i =>
    obtain ⟨n, hn⟩ := i
    have h : regOffset (.arg ⟨n, hn⟩) / 4 = n + 15 + 1 := by simp only [regOffset]; omega
    rw [regAt, h]
    simp [show n + 15 + 1 < 32 by omega]
  | res i =>
    obtain ⟨n, hn⟩ := i
    have h : regOffset (.res ⟨n, hn⟩) / 4 = n + 31 + 1 := by simp only [regOffset]; omega
    rw [regAt, h]
    simp [show ¬(n + 31 + 1 < 32) by omega, show n + 31 + 1 < 48 by omega]
  | _ => rfl

/-- Where a register stands at a multiple of 4, it is the register of that offset. -/
theorem regAt_eq_some (off : Nat) (r : Reg) (ha : off % 4 = 0) (h : regAt off = some r) : off = regOffset r := by
  have hq : off = 4 * (off / 4) := by omega
  generalize off / 4 = q at hq
  subst hq
  unfold regAt at h
  rw [Nat.mul_div_cancel_left q (by omega)] at h
  split at h
  all_goals first
    | (cases h; rfl)
    | skip
  split at h
  · cases h; simp only [regOffset]; omega
  · split at h
    · cases h; simp only [regOffset]; omega
    · cases h

/-! The address map -/

/-- A register-window access reaches the register at its offset, and only with four bytes. -/
theorem registerTarget_eq_ok (w : Width) (off : Nat) (t : Target) :
    registerTarget w off = .ok t ↔ w = .four ∧ ∃ r, t = .reg r ∧ off = regOffset r := by
  cases w with
  | one => simp [registerTarget]
  | four =>
    simp only [registerTarget, true_and]
    split
    · rename_i h
      constructor
      · intro h'; cases h'
      · rintro ⟨r, -, rfl⟩
        exact absurd (regOffset_aligned r) h
    · rename_i h
      constructor
      · intro h'
        split at h'
        · rename_i r hr
          cases h'
          exact ⟨r, rfl, regAt_eq_some off r (by omega) hr⟩
        · cases h'
      · rintro ⟨r, rfl, rfl⟩
        simp [regAt_regOffset]

/-- A buffer access reaches its bytes exactly when it is aligned and inside the capacity. -/
theorem bufferTarget_eq_ok (p : Params) (w : Width) (b : Buffer) (i : Nat) (t : Target) :
    bufferTarget p w b i = .ok t ↔ t = .buffer b i ∧ i % widthBytes w = 0 ∧ i + widthBytes w ≤ p.cap b := by
  unfold bufferTarget
  split
  · rename_i h; simp [h]
  · split
    · rename_i h; simp [Nat.not_le.mpr h]
    · rename_i h1 h2
      simp only [Except.ok.injEq]
      constructor
      · rintro rfl; exact ⟨rfl, by omega, by omega⟩
      · rintro ⟨rfl, -⟩; rfl

theorem width_aligned (w : Width) (i : Nat) : i % widthBytes w = 0 ↔ (w = .four → i % 4 = 0) := by
  cases w <;> simp [widthBytes, Nat.mod_one]

/-- The whole address map: an access is accepted exactly at a register with four bytes, or inside a buffer. -/
theorem target_eq_ok (p : Params) (w : Width) (off : Offset) (t : Target) :
    target p w off = .ok t ↔
      (w = .four ∧ ∃ r, t = .reg r ∧ off.toNat = regOffset r) ∨
      (∃ i, t = .buffer .input i ∧ off.toNat = 0x10000 + i ∧ i < 0x10000 ∧ i + widthBytes w ≤ p.inCap ∧
        (w = .four → i % 4 = 0)) ∨
      (∃ i, t = .buffer .output i ∧ off.toNat = 0x20000 + i ∧ i < 0x10000 ∧ i + widthBytes w ≤ p.outCap ∧
        (w = .four → i % 4 = 0)) := by
  unfold target
  simp only []
  have hreg : ∀ r, regOffset r < 0x10000 := regOffset_lt
  split
  · rename_i h
    rw [registerTarget_eq_ok]
    constructor
    · exact .inl
    · rintro (h' | ⟨i, -, hi, -⟩ | ⟨i, -, hi, -⟩)
      · exact h'
      · omega
      · omega
  · rename_i h
    split
    · rename_i h2
      rw [bufferTarget_eq_ok, width_aligned]
      constructor
      · rintro ⟨rfl, ha, hc⟩
        exact .inr (.inl ⟨_, rfl, by omega, by omega, hc, ha⟩)
      · rintro (⟨-, r, -, hr⟩ | ⟨i, rfl, hi, -, hc, ha⟩ | ⟨i, -, hi, -⟩)
        · have := hreg r; omega
        · rw [show off.toNat - 0x10000 = i by omega]; exact ⟨rfl, ha, hc⟩
        · omega
    · rename_i h2
      split
      · rename_i h3
        rw [bufferTarget_eq_ok, width_aligned]
        constructor
        · rintro ⟨rfl, ha, hc⟩
          exact .inr (.inr ⟨_, rfl, by omega, by omega, hc, ha⟩)
        · rintro (⟨-, r, -, hr⟩ | ⟨i, -, hi, hlt, -⟩ | ⟨i, rfl, hi, -, hc, ha⟩)
          · have := hreg r; omega
          · omega
          · rw [show off.toNat - 0x20000 = i by omega]; exact ⟨rfl, ha, hc⟩
      · rename_i h3
        constructor
        · intro h'; cases h'
        · rintro (⟨-, r, -, hr⟩ | ⟨i, -, hi, hlt, -⟩ | ⟨i, -, hi, hlt, -⟩)
          · have := hreg r; omega
          · omega
          · omega

/-- The address map accepts an access exactly when it is legal. -/
theorem target_isOk_iff (p : Params) (w : Width) (off : Offset) :
    (∃ t, target p w off = .ok t) ↔ legalAccess p w off.toNat := by
  simp only [target_eq_ok, legalAccess]
  constructor
  · rintro ⟨t, ⟨h, r, -, hr⟩ | ⟨i, -, h⟩ | ⟨i, -, h⟩⟩
    · exact .inl ⟨h, r, hr⟩
    · exact .inr (.inl ⟨i, h⟩)
    · exact .inr (.inr ⟨i, h⟩)
  · rintro (⟨h, r, hr⟩ | ⟨i, h⟩ | ⟨i, h⟩)
    · exact ⟨_, .inl ⟨h, r, rfl, hr⟩⟩
    · exact ⟨_, .inr (.inl ⟨i, rfl, h⟩)⟩
    · exact ⟨_, .inr (.inr ⟨i, rfl, h⟩)⟩

/-- Offset 0 is CMD. -/
@[simp] theorem target_cmd (p : Params) : target p .four 0 = .ok (.reg .cmd) := rfl

/-- Only offset 0 is CMD. -/
theorem target_eq_cmd (p : Params) (w : Width) (off : Offset) (h : target p w off = .ok (.reg .cmd)) : off = 0 := by
  rcases (target_eq_ok p w off _).mp h with ⟨-, r, hr, ho⟩ | ⟨i, hi, -⟩ | ⟨i, hi, -⟩
  · cases hr
    exact BitVec.eq_of_toNat_eq ho
  · cases hi
  · cases hi

/-! One step -/

theorem step_idle (s : State) (h : s.pending = []) : step s = .next s := by
  rw [step, h]

theorem step_reset (s : State) (rest : List HostEvent) (h : s.pending = .reset :: rest) :
    step s = .next (s.withPending rest).applyReset := by
  rw [step, h]

theorem step_access (s : State) (a : Access) (rest : List HostEvent) (h : s.pending = .access a :: rest) :
    step s = stepAccess a (s.withPending rest) := by
  rw [step, h]

/-- A write to CMD stores the word and runs it. -/
theorem stepAccess_cmd (s : State) (w : Word) :
    stepAccess (.writeWord 0 w) s = runWord w { s with cmd := w, response := .written } := rfl

/-- Any other access is the bus access alone. -/
theorem stepAccess_other (s : State) (a : Access) (h : ∀ v, a ≠ .writeWord 0 v) :
    stepAccess a s = .next (busAccess s a).1 := by
  have hn : (busAccess s a).2 = none := by
    cases a with
    | read off w => simp only [busAccess]; split <;> rfl
    | writeByte off b => simp only [busAccess]; split <;> rfl
    | writeWord off v =>
      simp only [busAccess]
      split
      · rfl
      · rename_i r hr
        have hc : r ≠ .cmd := by
          rintro rfl
          exact h v (by rw [target_eq_cmd _ _ _ hr])
        simp [hc]
      · rfl
  rw [stepAccess]
  split
  · rename_i h'
    rw [h'] at hn
    cases hn
  · rename_i h'
    rw [h']

end Sys2Proof.Machine
end

