-- ==== Sys2Proof/Laws/Fields.lean ====
section
/-! SUPPORT. The bit fields of headers and CLCW words as numbers, and the layout of a frame. -/

namespace Sys2Proof.Machine

theorem boolWord_beq {n : Nat} (a b : BitVec n) : boolWord (a == b) = if a = b then 1 else 0 := by
  by_cases h : a = b <;> simp [boolWord, h]

theorem boolWord_decide (p : Prop) [Decidable p] : boolWord (decide p) = if p then 1 else 0 := by
  by_cases h : p <;> simp [boolWord, h]

/-! Big-endian halves and header fields (45_frame.md R200, R209) -/

theorem be16_toNat (x y : Byte) : (be16 x y).toNat = x.toNat * 256 + y.toNat := by
  have hx := x.isLt
  have hy := y.isLt
  rw [show x.toNat * 256 = x.toNat <<< 8 by rw [Nat.shiftLeft_eq], Nat.shiftLeft_add_eq_or_of_lt hy]
  simp only [be16, BitVec.toNat_or, BitVec.toNat_shiftLeft, BitVec.toNat_setWidth]
  rw [Nat.mod_eq_of_lt (show x.toNat < 2 ^ 16 by omega), Nat.mod_eq_of_lt (show y.toNat < 2 ^ 16 by omega),
    Nat.mod_eq_of_lt (by rw [Nat.shiftLeft_eq]; omega)]

theorem headerVersion_toNat (h : List Byte) :
    (headerVersion h).toNat = ((byteAt h 0).toNat * 256 + (byteAt h 1).toNat) / 16384 := by
  have := (byteAt h 0).isLt
  have := (byteAt h 1).isLt
  simp only [headerVersion, headerWord0, BitVec.toNat_setWidth, BitVec.extractLsb'_toNat, be16_toNat,
    Nat.shiftRight_eq_div_pow]
  omega

theorem headerScid_toNat (h : List Byte) :
    (headerScid h).toNat = ((byteAt h 0).toNat * 256 + (byteAt h 1).toNat) / 16 % 1024 := by
  simp only [headerScid, headerWord0, BitVec.toNat_setWidth, BitVec.extractLsb'_toNat, be16_toNat,
    Nat.shiftRight_eq_div_pow]
  omega

theorem headerVcid_toNat (h : List Byte) :
    (headerVcid h).toNat = ((byteAt h 0).toNat * 256 + (byteAt h 1).toNat) / 2 % 8 := by
  simp only [headerVcid, headerWord0, BitVec.toNat_setWidth, BitVec.extractLsb'_toNat, be16_toNat,
    Nat.shiftRight_eq_div_pow]
  omega

theorem headerOcf_toNat (h : List Byte) :
    (headerOcf h).toNat = ((byteAt h 0).toNat * 256 + (byteAt h 1).toNat) % 2 := by
  simp only [headerOcf, headerWord0, BitVec.toNat_setWidth, BitVec.extractLsb'_toNat, be16_toNat,
    Nat.shiftRight_eq_div_pow]
  omega

theorem headerCount_toNat (h : List Byte) :
    (headerCount h).toNat = (byteAt h 2).toNat * 256 + (byteAt h 3).toNat := by
  have := (byteAt h 2).isLt
  have := (byteAt h 3).isLt
  simp only [headerCount, BitVec.toNat_setWidth, be16_toNat]
  omega

theorem headerDfs_toNat (h : List Byte) :
    (headerDfs h).toNat = (byteAt h 4).toNat * 256 + (byteAt h 5).toNat := by
  have := (byteAt h 4).isLt
  have := (byteAt h 5).isLt
  simp only [headerDfs, BitVec.toNat_setWidth, be16_toNat]
  omega

/-- The command bit is bit 7 of byte 4 (45_frame.md R206). -/
theorem headerIsCommand_eq (h : List Byte) : headerIsCommand h = if 128 ≤ (byteAt h 4).toNat then 1 else 0 := by
  have := (byteAt h 4).isLt
  have := (byteAt h 5).isLt
  rw [headerIsCommand, ← boolWord_decide, BitVec.getLsbD, Nat.testBit_eq_decide_div_mod_eq, headerDfs_toNat]
  congr 1
  rw [decide_eq_decide]
  omega

/-! Building headers and frames -/

theorem header_length (a b c d e : Word) : (header a b c d e).length = 6 := rfl

/-- The six bytes of a header, for operands in their ranges. -/
theorem header_eq (a b c d e : Word) (ha : a.toNat ≤ 1023) (hb : b.toNat ≤ 7) (hc : c.toNat ≤ 65535)
    (hd : d.toNat ≤ 65535) (he : e.toNat ≤ 1) :
    header a b c d e =
      [BitVec.ofNat 8 ((a.toNat * 16 + b.toNat * 2 + e.toNat) / 256),
        BitVec.ofNat 8 (a.toNat * 16 + b.toNat * 2 + e.toNat),
        BitVec.ofNat 8 (c.toNat / 256), BitVec.ofNat 8 c.toNat, BitVec.ofNat 8 (d.toNat / 256), BitVec.ofNat 8 d.toNat] := by
  have hw : ((0#16 <<< 14) ||| (a.setWidth 16 <<< 4) ||| (b.setWidth 16 <<< 1) ||| e.setWidth 16).toNat =
      a.toNat * 16 + b.toNat * 2 + e.toNat := by
    have e1 : b.toNat * 2 + e.toNat = b.toNat <<< 1 ||| e.toNat := by
      rw [← Nat.shiftLeft_add_eq_or_of_lt (by omega), Nat.shiftLeft_eq]
    have e2 : a.toNat * 16 + (b.toNat * 2 + e.toNat) = a.toNat <<< 4 ||| (b.toNat * 2 + e.toNat) := by
      rw [← Nat.shiftLeft_add_eq_or_of_lt (by omega), Nat.shiftLeft_eq]
    rw [Nat.add_assoc, e2, e1]
    simp only [BitVec.toNat_or, BitVec.toNat_shiftLeft, BitVec.toNat_setWidth]
    rw [Nat.mod_eq_of_lt (show a.toNat < 2 ^ 16 by omega), Nat.mod_eq_of_lt (show b.toNat < 2 ^ 16 by omega),
      Nat.mod_eq_of_lt (show e.toNat < 2 ^ 16 by omega),
      Nat.mod_eq_of_lt (show a.toNat <<< 4 < 2 ^ 16 by rw [Nat.shiftLeft_eq]; omega),
      Nat.mod_eq_of_lt (show b.toNat <<< 1 < 2 ^ 16 by rw [Nat.shiftLeft_eq]; omega), Nat.or_assoc]
    simp
  simp only [header, bytes16, List.cons_append, List.nil_append, List.cons.injEq, and_true]
  refine ⟨?_, ?_, ?_, ?_, ?_, ?_⟩ <;> apply BitVec.eq_of_toNat_eq <;>
    simp only [BitVec.extractLsb'_toNat, hw, BitVec.toNat_ofNat, BitVec.toNat_setWidth, Nat.shiftRight_eq_div_pow] <;>
    omega

/-- A frame before its FECF: in the data field, IN's bytes up to IN_LEN and then zeros. -/
theorem frameBody_eq (s : State) (head : List Byte) (d : Nat) (ocf : List Byte) :
    frameBody head (inputString s) d ocf =
      head ++ (List.range d).map (fun a => if a < s.inLen.toNat then s.inByte a else 0) ++ ocf := by
  unfold frameBody
  dsimp only
  congr 1
  rw [List.append_assoc]
  congr 1
  apply List.ext_getElem
  · simp
  · intro i h1 h2
    simp only [List.length_map, List.length_range] at h2
    simp only [List.getElem_append, List.getElem_take, List.getElem_map, List.getElem_range, inputString,
      List.getElem_replicate, List.length_take, List.length_map, List.length_range] at *
    split
    · rw [if_pos (by omega)]
    · rw [if_neg (by omega)]

/-! CLCW fields (46_clcw.md R240, R245) -/

theorem clcwField_eq (w : Word) (lowest width : Nat) :
    clcwField w (lowest, width) = BitVec.ofNat 32 (w.toNat / 2 ^ lowest % 2 ^ width) := by
  apply BitVec.eq_of_toNat_eq
  simp only [clcwField, BitVec.toNat_setWidth, BitVec.extractLsb'_toNat, Nat.shiftRight_eq_div_pow, BitVec.toNat_ofNat]

/-- Nominal: the status field (bits 28:26) and the five flags (bits 15:11) are zero. -/
theorem clcwNominal_eq (w : Word) :
    clcwNominal w = decide (w.toNat / 2 ^ 26 % 8 = 0 ∧ w.toNat / 2 ^ 11 % 32 = 0) := by
  rw [Bool.eq_iff_iff]
  simp only [clcwNominal, Bool.and_eq_true, beq_iff_eq, Bool.not_eq_true', BitVec.toNat_eq, BitVec.extractLsb'_toNat,
    BitVec.getLsbD, Nat.testBit_eq_decide_div_mod_eq, Nat.shiftRight_eq_div_pow, decide_eq_true_eq,
    decide_eq_false_iff_not]
  simp
  omega

/-- A field placed above a smaller number adds to it. -/
theorem or_eq_add (a b i : Nat) (h : b < 2 ^ i) : a * 2 ^ i ||| b = a * 2 ^ i + b := by
  rw [← Nat.shiftLeft_eq, Nat.shiftLeft_add_eq_or_of_lt h]

end Sys2Proof.Machine
end

