-- ==== Sys2Proof/Laws/PerInstr.lean ====
section
/-! SUPPORT. The per-instruction families of LAWS.json: one lemma per operation. -/

namespace Sys2Proof.Laws.WordShape

/-- The command word of an operation is a legal one, with zero in RSV and the operation's opcode in FAM and FN
(30_encoding.md R80). -/
def Statement (i : Instr) : Prop :=
  commandWordWf (encode i) = true ∧ (encode i).extractLsb' 8 24 = 0 ∧ (encode i).extractLsb' 0 8 = i.opcode

theorem crcCalc : Statement .crcCalc := ⟨rfl, rfl, rfl⟩
theorem crcVerify : Statement .crcVerify := ⟨rfl, rfl, rfl⟩
theorem crcAppend : Statement .crcAppend := ⟨rfl, rfl, rfl⟩
theorem crcVerifyApp : Statement .crcVerifyApp := ⟨rfl, rfl, rfl⟩
theorem parCalc : Statement .parCalc := ⟨rfl, rfl, rfl⟩
theorem parVerify : Statement .parVerify := ⟨rfl, rfl, rfl⟩
theorem cltuEnc : Statement .cltuEnc := ⟨rfl, rfl, rfl⟩
theorem cltuDec : Statement .cltuDec := ⟨rfl, rfl, rfl⟩
theorem cltuSize : Statement .cltuSize := ⟨rfl, rfl, rfl⟩
theorem cltuBlocks : Statement .cltuBlocks := ⟨rfl, rfl, rfl⟩
theorem scrRand : Statement .scrRand := ⟨rfl, rfl, rfl⟩
theorem scrRandIp : Statement .scrRandIp := ⟨rfl, rfl, rfl⟩
theorem scrDerand : Statement .scrDerand := ⟨rfl, rfl, rfl⟩
theorem scrDerandIp : Statement .scrDerandIp := ⟨rfl, rfl, rfl⟩
theorem scrSeq : Statement .scrSeq := ⟨rfl, rfl, rfl⟩
theorem fhParse : Statement .fhParse := ⟨rfl, rfl, rfl⟩
theorem fhScid : Statement .fhScid := ⟨rfl, rfl, rfl⟩
theorem fhVcid : Statement .fhVcid := ⟨rfl, rfl, rfl⟩
theorem fhCount : Statement .fhCount := ⟨rfl, rfl, rfl⟩
theorem fhValid : Statement .fhValid := ⟨rfl, rfl, rfl⟩
theorem fhIsCmd : Statement .fhIsCmd := ⟨rfl, rfl, rfl⟩
theorem fhIsTm : Statement .fhIsTm := ⟨rfl, rfl, rfl⟩
theorem fhBuild : Statement .fhBuild := ⟨rfl, rfl, rfl⟩
theorem tmBuild : Statement .tmBuild := ⟨rfl, rfl, rfl⟩
theorem tcBuild : Statement .tcBuild := ⟨rfl, rfl, rfl⟩
theorem clcwEnc : Statement .clcwEnc := ⟨rfl, rfl, rfl⟩
theorem clcwEncFull : Statement .clcwEncFull := ⟨rfl, rfl, rfl⟩
theorem clcwDec : Statement .clcwDec := ⟨rfl, rfl, rfl⟩
theorem clcwNominal : Statement .clcwNominal := ⟨rfl, rfl, rfl⟩

end Sys2Proof.Laws.WordShape
end

