-- ==== Sys2Proof/Laws/Script.lean ====
section
/-! SUPPORT. What a host-script statement's access is: where it goes, and that a well-formed one is legal. -/

namespace Sys2Proof.Machine

/-- The offset of `BASE + n` is what the address map of the whole bus gives. -/
theorem windowOffset_base_add (n : Nat) : windowOffset (Config.base + n) = offsetInWindow n := by
  unfold windowOffset offsetInWindow
  by_cases h : n < 0x40000
  · rw [if_pos (by omega), if_pos h, Nat.add_sub_cancel_left]
  · rw [if_neg (by omega), if_neg h]

theorem offsetInWindow_eq_some (n : Nat) (off : Offset) : offsetInWindow n = some off ↔ off.toNat = n := by
  have hlt := off.isLt
  unfold offsetInWindow
  split
  · rename_i h
    rw [Option.some.injEq, BitVec.toNat_eq, BitVec.toNat_ofNat, Nat.mod_eq_of_lt h, eq_comm]
  · rename_i h
    constructor
    · intro h'; cases h'
    · intro h'; omega

/-- Inside the window an offset stands for itself, never for another one. -/
theorem offsetInWindow_of_lt (n : Nat) (h : n < 0x40000) : ∃ off, offsetInWindow n = some off ∧ off.toNat = n := by
  have hs : offsetInWindow n = some (BitVec.ofNat 18 n) := if_pos h
  exact ⟨_, hs, (offsetInWindow_eq_some n _).mp hs⟩

theorem regOffset_toNat (r : Reg) : (BitVec.ofNat 18 (regOffset r)).toNat = regOffset r := by
  have := regOffset_lt r
  rw [BitVec.toNat_ofNat, Nat.mod_eq_of_lt (by omega)]

/-- A well-formed statement is one legal access of the block, in every build. -/
theorem stmtAccess_legal (p : Params) (hp : p.wf) (st : Stmt) (h : st.wf p = true) :
    ∃ a, stmtAccess st = some a ∧ legalAccess p (accessWidth a) (accessOffset a) := by
  obtain ⟨⟨-, hin⟩, -, hout⟩ := hp
  have reg : ∀ r, legalAccess p .four (BitVec.ofNat 18 (regOffset r)).toNat := fun r =>
    .inl ⟨rfl, r, regOffset_toNat r⟩
  cases st with
  | wr r v => exact ⟨_, rfl, reg r⟩
  | rd r => exact ⟨_, rfl, reg r⟩
  | cmd i => exact ⟨_, rfl, reg .cmd⟩
  | wrb i b =>
    have hi : i < p.inCap := by simpa [Stmt.wf] using h
    obtain ⟨off, ho, hn⟩ := offsetInWindow_of_lt (0x10000 + i) (by omega)
    exact ⟨.writeByte off b, by rw [stmtAccess, inOffset, ho]; rfl,
      .inr (.inl ⟨i, hn, by omega, hi, fun e => nomatch e⟩)⟩
  | wrw i v =>
    have hi : i % 4 = 0 ∧ i + 4 ≤ p.inCap := by simpa [Stmt.wf] using h
    obtain ⟨off, ho, hn⟩ := offsetInWindow_of_lt (0x10000 + i) (by omega)
    exact ⟨.writeWord off v, by rw [stmtAccess, inOffset, ho]; rfl,
      .inr (.inl ⟨i, hn, by omega, hi.2, fun _ => hi.1⟩)⟩
  | rdb b i =>
    cases b with
    | input =>
      have hi : i < p.inCap := of_decide_eq_true h
      obtain ⟨off, ho, hn⟩ := offsetInWindow_of_lt (0x10000 + i) (by omega)
      exact ⟨.read off .one, by rw [stmtAccess, bufferOffset, inOffset, ho]; rfl,
        .inr (.inl ⟨i, hn, by omega, hi, fun e => nomatch e⟩)⟩
    | output =>
      have hi : i < p.outCap := of_decide_eq_true h
      obtain ⟨off, ho, hn⟩ := offsetInWindow_of_lt (0x20000 + i) (by omega)
      exact ⟨.read off .one, by rw [stmtAccess, bufferOffset, outOffset, ho]; rfl,
        .inr (.inr ⟨i, hn, by omega, hi, fun e => nomatch e⟩)⟩
  | rdw i =>
    have hi : i % 4 = 0 ∧ i + 4 ≤ p.outCap := by simpa [Stmt.wf] using h
    obtain ⟨off, ho, hn⟩ := offsetInWindow_of_lt (0x20000 + i) (by omega)
    exact ⟨.read off .four, by rw [stmtAccess, outOffset, ho]; rfl,
      .inr (.inr ⟨i, hn, by omega, hi.2, fun _ => hi.1⟩)⟩

/-! LOADIN -/

theorem loadLength_of_lt (n : Nat) (h : n < 2 ^ 32) : (loadLength n).toNat = n := by
  rw [loadLength, if_pos h, BitVec.toNat_ofNat, Nat.mod_eq_of_lt h]

/-- A character with an ASCII code is loaded as that code, whatever the free values are. -/
theorem textByte_of_lt (c : Char) (h : c.toNat < 128) : (textByte c).toNat = c.toNat := by
  rw [textByte, if_pos h, BitVec.toNat_ofNat, Nat.mod_eq_of_lt (by omega)]

/-- A well-formed text is loaded as its ASCII codes, one byte for each character. -/
theorem asciiBytes_of_wf (p : Params) (t : String) (h : (Pseudo.loadText t).wf p = true) :
    (asciiBytes t).map BitVec.toNat = t.toList.map Char.toNat := by
  rw [Pseudo.wf, Bool.and_eq_true, List.all_eq_true] at h
  rw [asciiBytes, List.map_map]
  exact List.map_congr_left fun c hc => textByte_of_lt c (of_decide_eq_true (h.1 c hc))

@[simp] theorem enqueue_pending (s : State) (l : List Stmt) :
    (s.enqueue l).pending = s.pending ++ (l.filterMap stmtAccess).map .access := rfl

end Sys2Proof.Machine
end

