-- ==== Sys2Proof/Laws/Writes.lean ====
section
/-! SUPPORT. What any operation's body can raise, which RES registers it names, what byte strings it writes, and
which operands it depends on. -/

namespace Sys2Proof.Machine

/-! Errors -/

/-- A body raises in its first check or in what follows it. -/
theorem bind_eq_error {α β : Type} (x : Except CmdError α) (f : α → Except CmdError β) (e : CmdError)
    (h : (x >>= f) = .error e) : x = .error e ∨ ∃ a, x = .ok a ∧ f a = .error e := by
  cases x with
  | error d => exact .inl (by cases h; rfl)
  | ok a => exact .inr ⟨a, rfl, h⟩

theorem require_error_code {c : Prop} [Decidable c] {code : ErrCode} {info : Word} {e : CmdError}
    (h : require c code info = .error e) : e.code = code := by
  unfold require at h
  split at h <;> cases h
  rfl

theorem cltuDecode_error_code (b : List Byte) (n : Nat) (e : CmdError) (h : cltuDecode b n = .error e) :
    e.code ≠ .illegalOp := by
  unfold cltuDecode at h
  rcases bind_eq_error _ _ _ h with h | ⟨_, _, h⟩
  · simp [require_error_code h]
  rcases bind_eq_error _ _ _ h with h | ⟨_, _, h⟩
  · simp [require_error_code h]
  rcases bind_eq_error _ _ _ h with h | ⟨_, _, h⟩
  · simp [require_error_code h]
  rcases bind_eq_error _ _ _ h with h | ⟨_, _, h⟩
  · unfold decodeBlocks at h
    split at h <;> cases h
    simp
  · cases h

/-- ILLEGAL_OP comes from the decoder only, never from an operation. -/
theorem commandBody_error_code (i : Instr) (s : State) (e : CmdError) (h : commandBody i s = .error e) :
    e.code ≠ .illegalOp := by
  cases i <;> simp only [commandBody, crcCalcBody_eq, crcVerifyBody_eq, crcAppendBody_eq, crcVerifyAppBody_eq, parCalcBody_eq, parVerifyBody_eq, cltuEncBody_eq,
    cltuDecBody_eq, cltuSizeBody_eq, scrCopyBody_eq, scrInPlaceBody_eq, scrSeqBody_eq, fhParseBody_eq, fhScidBody_eq,
    fhVcidBody_eq, fhCountBody_eq, fhValidBody_eq, fhIsCmdBody_eq, fhIsTmBody_eq, fhBuildBody_eq, tmBuildBody_eq,
    tcBuildBody_eq, clcwEncBody_eq, clcwEncFullBody_eq, cltuBlocksBody, clcwDecBody, clcwNominalBody] at h
  case cltuDec =>
    split at h
    · cases h; simp
    · split at h
      · cases h; rename_i h; exact cltuDecode_error_code _ _ _ h
      · split at h <;> cases h; simp
  case clcwEncFull =>
    split at h
    · cases h; rename_i h; obtain ⟨_, _, _, _, _, _, _, rfl⟩ := requireArgs_error _ _ _ h; simp
    · cases h
  all_goals (repeat' split at h)
  all_goals (cases h; try simp)

/-! Writes -/

/-- How many RES registers, from RES0 on, an operation names (30_encoding.md R81). -/
def namedResults : Instr → Nat
  | .scrRand => 0
  | .scrRandIp => 0
  | .scrDerand => 0
  | .scrDerandIp => 0
  | .scrSeq => 0
  | .fhBuild => 0
  | .crcVerify => 2
  | .crcVerifyApp => 2
  | .parVerify => 2
  | .fhParse => 10
  | .clcwDec => 13
  | _ => 1

/-- An operation writes no RES register beyond those it names. -/
theorem commandBody_results (i : Instr) (s : State) (w : Writes) (h : commandBody i s = .ok w) :
    ∀ p ∈ w.results, p.1.val < namedResults i := by
  cases i <;> simp only [commandBody, crcCalcBody_eq, crcVerifyBody_eq, crcAppendBody_eq, crcVerifyAppBody_eq, parCalcBody_eq, parVerifyBody_eq, cltuEncBody_eq,
    cltuDecBody_eq, cltuSizeBody_eq, scrCopyBody_eq, scrInPlaceBody_eq, scrSeqBody_eq, fhParseBody_eq, fhScidBody_eq,
    fhVcidBody_eq, fhCountBody_eq, fhValidBody_eq, fhIsCmdBody_eq, fhIsTmBody_eq, fhBuildBody_eq, tmBuildBody_eq,
    tcBuildBody_eq, clcwEncBody_eq, clcwEncFullBody_eq, cltuBlocksBody, clcwDecBody, clcwNominalBody] at h
  all_goals (repeat' split at h)
  all_goals cases h
  all_goals simp [namedResults, clcwArgs, clcwFields]

theorem scrBytes_length (n : Nat) (s : Byte) : (scrBytes n s).length = n := by
  induction n generalizing s with
  | zero => rfl
  | succ n ih => simp [scrBytes, ih]

theorem scramble_length (x : List Byte) : (scramble x).length = x.length := by
  simp [scramble, scrSeq, scrBytes_length]

/-- Only an in-place scrambler operation writes IN, inside its capacity. -/
theorem commandBody_input (i : Instr) (s : State) (w : Writes) (h : commandBody i s = .ok w) :
    w.input = none ∨ ((i = .scrRandIp ∨ i = .scrDerandIp) ∧ w.input = some (scramble (inputString s)) ∧
      s.inLen.toNat ≤ s.params.inCap) := by
  cases i <;> simp only [commandBody, crcCalcBody_eq, crcVerifyBody_eq, crcAppendBody_eq, crcVerifyAppBody_eq, parCalcBody_eq, parVerifyBody_eq, cltuEncBody_eq,
    cltuDecBody_eq, cltuSizeBody_eq, scrCopyBody_eq, scrInPlaceBody_eq, scrSeqBody_eq, fhParseBody_eq, fhScidBody_eq,
    fhVcidBody_eq, fhCountBody_eq, fhValidBody_eq, fhIsCmdBody_eq, fhIsTmBody_eq, fhBuildBody_eq, tmBuildBody_eq,
    tcBuildBody_eq, clcwEncBody_eq, clcwEncFullBody_eq, cltuBlocksBody, clcwDecBody, clcwNominalBody] at h
  all_goals (repeat' split at h)
  all_goals cases h
  all_goals simp
  all_goals omega

/-- Only an operation with a byte-string result writes OUT, inside its capacity. -/
theorem commandBody_output (i : Instr) (s : State) (w : Writes) (h : commandBody i s = .ok w) :
    w.output = none ∨
      (i ∈ [Instr.crcAppend, .cltuEnc, .cltuDec, .scrRand, .scrDerand, .scrSeq, .fhBuild, .tmBuild, .tcBuild] ∧
        ∃ r, w.output = some r ∧ r.length ≤ s.params.outCap) := by
  cases i <;> simp only [commandBody, crcCalcBody_eq, crcVerifyBody_eq, crcAppendBody_eq, crcVerifyAppBody_eq, parCalcBody_eq, parVerifyBody_eq, cltuEncBody_eq,
    cltuDecBody_eq, cltuSizeBody_eq, scrCopyBody_eq, scrInPlaceBody_eq, scrSeqBody_eq, fhParseBody_eq, fhScidBody_eq,
    fhVcidBody_eq, fhCountBody_eq, fhValidBody_eq, fhIsCmdBody_eq, fhIsTmBody_eq, fhBuildBody_eq, tmBuildBody_eq,
    tcBuildBody_eq, clcwEncBody_eq, clcwEncFullBody_eq, cltuBlocksBody, clcwDecBody, clcwNominalBody] at h
  all_goals (repeat' split at h)
  all_goals cases h
  all_goals first | exact .inl rfl | (refine .inr ⟨by simp, _, rfl, ?_⟩)
  all_goals (try simp only [List.length_append, bytes16, inputString_length, scramble_length, scrSeq, scrBytes_length,
    List.length_cons, List.length_nil, withFecf, frameBody, header, List.length_take, List.length_replicate,
    bytes32] at *)
  all_goals (try omega)

/-! Operands -/

/-- A body depends on the capacities, IN_LEN, the first IN_LEN bytes of IN, and ARG only. -/
theorem commandBody_congr (i : Instr) (s t : State) (hp : s.params = t.params) (hl : s.inLen = t.inLen)
    (ha : ∀ k, s.getArg k = t.getArg k) (hb : ∀ a < s.inLen.toNat, s.inByte a = t.inByte a) :
    commandBody i s = commandBody i t := by
  have hx := inputString_congr s t hl hb
  have hn : ∀ k, argNat s k = argNat t k := fun k => by simp [argNat, ha]
  have hg : s.getArg = t.getArg := funext ha
  have hr : ∀ l, requireArgs s l = requireArgs t l := fun l => by
    induction l with
    | nil => rfl
    | cons p l ih =>
      obtain ⟨i, m⟩ := p
      simp only [requireArgs, requireArg, hn, ih]
  have hf : frameSize s = frameSize t := by simp [frameSize, hn]
  cases i <;> simp only [commandBody, crcCalcBody_eq, crcVerifyBody_eq, crcAppendBody_eq, crcVerifyAppBody_eq, parCalcBody_eq, parVerifyBody_eq, cltuEncBody_eq,
    cltuDecBody_eq, cltuSizeBody_eq, scrCopyBody_eq, scrInPlaceBody_eq, scrSeqBody_eq, fhParseBody_eq, fhScidBody_eq,
    fhVcidBody_eq, fhCountBody_eq, fhValidBody_eq, fhIsCmdBody_eq, fhIsTmBody_eq, fhBuildBody_eq, tmBuildBody_eq,
    tcBuildBody_eq, clcwEncBody_eq, clcwEncFullBody_eq, cltuBlocksBody, clcwDecBody, clcwNominalBody, hp, hl, hg, hn, hx, hr, hf]

end Sys2Proof.Machine
end

