-- ==== Sys2Proof/Tests/Slice0.lean ====
section
/-! SUPPORT. Tests: what WellFormed refuses, every command word, the spec's vectors (95_test_vectors.md) one step each,
and one witness for the hypotheses of each obligation that has any. -/

open Sys2Proof Sys2Proof.Machine

namespace Sys2Proof.Tests

set_option maxRecDepth 8000

/-! Helpers -/

/-- The state after reset with the bytes of IN, IN_LEN and the named ARG registers as the host wrote them. -/
def host (bytes : List Byte) (args : List (Fin 16 × Word)) : State :=
  { State.reset with
    inBuf := ⟨placeAt 0 bytes⟩, inLen := BitVec.ofNat 32 bytes.length,
    arg := Vector.ofFn (fun k => (args.lookup k).getD 0) }

/-- The state after one step, the host's write of the command word of `i` to CMD. -/
def after (i : Instr) (s : State) : State :=
  match step (s.withFetchWord 32 (encode i).toNat) with
  | .next t => t
  | .fault _ => s
  | .refused _ => s

/-- The state after one step at `s`, or `s` where a step stops (none does). -/
def stepped (s : State) : State :=
  match step s with
  | .next t => t
  | .fault _ => s
  | .refused _ => s

/-- The state whose next event is the access `a`. -/
def asked (s : State) (a : Access) : State := { s with pending := [.access a] }

/-- STATUS and ERRINFO. -/
def report (s : State) : Word × Word := (s.status, s.errInfo)

/-- RES registers 0 to n - 1. -/
def results (s : State) (n : Nat) : List Word := s.res.toList.take n

/-- "123456789" -/
def digits : List Byte := [0x31, 0x32, 0x33, 0x34, 0x35, 0x36, 0x37, 0x38, 0x39]

/-- V-CLTU-E3 -/
def unit7 : List Byte :=
  [0xEB, 0x90, 0x41, 0x42, 0x43, 0x44, 0x45, 0x46, 0x47, 0xA1, 0xC5, 0xC5, 0xC5, 0xC5, 0xC5, 0xC5, 0xC5]

/-- V-CLTU-E2 -/
def unit1 : List Byte :=
  [0xEB, 0x90, 0x01, 0x55, 0x55, 0x55, 0x55, 0x55, 0x55, 0x7F, 0xC5, 0xC5, 0xC5, 0xC5, 0xC5, 0xC5, 0xC5]

/-! WellFormed: one ill-formed term for each check -/

theorem test_wf_refuses_rsv : commandWordWf 0x00000110 = false := by decide
theorem test_wf_refuses_family_0 : commandWordWf 0x00000000 = false := by decide
theorem test_wf_refuses_family_7 : commandWordWf 0x00000070 = false := by decide
theorem test_wf_refuses_function : commandWordWf 0x00000014 = false := by decide
theorem test_wf_refuses_in_cap_0 : ¬(⟨0, 1⟩ : Params).wf := by decide
theorem test_wf_refuses_in_cap_large : ¬(⟨65537, 1⟩ : Params).wf := by decide
theorem test_wf_refuses_out_cap_0 : ¬(⟨1, 0⟩ : Params).wf := by decide
theorem test_wf_refuses_out_cap_large : ¬(⟨1, 65537⟩ : Params).wf := by decide
theorem test_wf_accepts_extreme_caps : (⟨1, 65536⟩ : Params).wf := by decide
theorem test_wf_refuses_wrb_beyond : (Stmt.wrb 4096 0).wf Params.standard = false := by decide
theorem test_wf_refuses_wrw_misaligned : (Stmt.wrw 2 0).wf Params.standard = false := by decide
theorem test_wf_refuses_wrw_beyond : (Stmt.wrw 8 0).wf ⟨10, 10⟩ = false := by decide
theorem test_wf_refuses_rdb_beyond : (Stmt.rdb .output 4096).wf Params.standard = false := by decide
theorem test_wf_refuses_rdw_misaligned : (Stmt.rdw 1).wf Params.standard = false := by decide
theorem test_wf_refuses_rdw_beyond : (Stmt.rdw 8).wf ⟨10, 10⟩ = false := by decide
theorem test_wf_refuses_load_beyond : (Pseudo.loadIn [0, 0]).wf ⟨1, 1⟩ = false := by decide
theorem test_wf_refuses_text_beyond : (Pseudo.loadText "ab").wf ⟨1, 1⟩ = false := by decide
theorem test_wf_refuses_text_not_ascii : (Pseudo.loadText "é").wf ⟨9, 9⟩ = false := by decide
theorem test_wf_refuses_expect_beyond : (Pseudo.expectBytes .output 1 [0]).wf ⟨1, 1⟩ = false := by decide

/-! Decoding: every row of the opcode table, its word written from RSV, FAM and FN (30_encoding.md R80, R81) -/

theorem test_decode_crcCalc : decodeTableWord 32 0x000000_1_0 = some .crcCalc := by decide
theorem test_decode_crcVerify : decodeTableWord 32 0x000000_1_1 = some .crcVerify := by decide
theorem test_decode_crcAppend : decodeTableWord 32 0x000000_1_2 = some .crcAppend := by decide
theorem test_decode_crcVerifyApp : decodeTableWord 32 0x000000_1_3 = some .crcVerifyApp := by decide
theorem test_decode_parCalc : decodeTableWord 32 0x000000_2_0 = some .parCalc := by decide
theorem test_decode_parVerify : decodeTableWord 32 0x000000_2_1 = some .parVerify := by decide
theorem test_decode_cltuEnc : decodeTableWord 32 0x000000_3_0 = some .cltuEnc := by decide
theorem test_decode_cltuDec : decodeTableWord 32 0x000000_3_1 = some .cltuDec := by decide
theorem test_decode_cltuSize : decodeTableWord 32 0x000000_3_2 = some .cltuSize := by decide
theorem test_decode_cltuBlocks : decodeTableWord 32 0x000000_3_3 = some .cltuBlocks := by decide
theorem test_decode_scrRand : decodeTableWord 32 0x000000_4_0 = some .scrRand := by decide
theorem test_decode_scrRandIp : decodeTableWord 32 0x000000_4_1 = some .scrRandIp := by decide
theorem test_decode_scrDerand : decodeTableWord 32 0x000000_4_2 = some .scrDerand := by decide
theorem test_decode_scrDerandIp : decodeTableWord 32 0x000000_4_3 = some .scrDerandIp := by decide
theorem test_decode_scrSeq : decodeTableWord 32 0x000000_4_4 = some .scrSeq := by decide
theorem test_decode_fhParse : decodeTableWord 32 0x000000_5_0 = some .fhParse := by decide
theorem test_decode_fhScid : decodeTableWord 32 0x000000_5_1 = some .fhScid := by decide
theorem test_decode_fhVcid : decodeTableWord 32 0x000000_5_2 = some .fhVcid := by decide
theorem test_decode_fhCount : decodeTableWord 32 0x000000_5_3 = some .fhCount := by decide
theorem test_decode_fhValid : decodeTableWord 32 0x000000_5_4 = some .fhValid := by decide
theorem test_decode_fhIsCmd : decodeTableWord 32 0x000000_5_5 = some .fhIsCmd := by decide
theorem test_decode_fhIsTm : decodeTableWord 32 0x000000_5_6 = some .fhIsTm := by decide
theorem test_decode_fhBuild : decodeTableWord 32 0x000000_5_7 = some .fhBuild := by decide
theorem test_decode_tmBuild : decodeTableWord 32 0x000000_5_8 = some .tmBuild := by decide
theorem test_decode_tcBuild : decodeTableWord 32 0x000000_5_9 = some .tcBuild := by decide
theorem test_decode_clcwEnc : decodeTableWord 32 0x000000_6_0 = some .clcwEnc := by decide
theorem test_decode_clcwEncFull : decodeTableWord 32 0x000000_6_1 = some .clcwEncFull := by decide
theorem test_decode_clcwDec : decodeTableWord 32 0x000000_6_2 = some .clcwDec := by decide
theorem test_decode_clcwNominal : decodeTableWord 32 0x000000_6_3 = some .clcwNominal := by decide

theorem test_decode_refuses_rsv : decodeWord 0x00000110 = .error .reservedBits := rfl
theorem test_decode_refuses_family_0 : decodeWord 0x00000000 = .error .unassignedFamily := rfl
theorem test_decode_refuses_family_7 : decodeWord 0x00000070 = .error .unassignedFamily := rfl
theorem test_decode_refuses_function : decodeWord 0x00000045 = .error .unassignedFunction := rfl
theorem test_decode_refuses_wide : decodeTableWord 40 0x100000010 = none := by decide

/-! One step each: the vectors of 95_test_vectors.md -/

-- W2, V-CRC-20
theorem test_crcCalc_digits : results (after .crcCalc (host digits [])) 1 = [0x29B1] := by decide
theorem test_crcCalc_length : report (after .crcCalc { State.reset with inLen := 4097 }) = (0x00100202, 4097) := by decide
-- V-CRC-10, V-CRC-11
theorem test_crcVerify_mismatch :
    results (after .crcVerify (host digits [(0, 0x29B0)])) 2 = [0x29B1, 0] ∧
    report (after .crcVerify (host digits [(0, 0x29B0)])) = (0x00110001, 0) := by decide
theorem test_crcVerify_range : report (after .crcVerify (host [] [(0, 0x10000)])) = (0x00110302, 0) := by decide
-- V-CRC-13, V-CRC-15
theorem test_crcAppend_digits : outputString (after .crcAppend (host digits [])) = digits ++ [0x29, 0xB1] := by decide
theorem test_crcAppend_overflow :
    report (after .crcAppend { host [] [] with inLen := 3, params := ⟨4, 4⟩ }) = (0x00120502, 5) := by decide
-- V-CRC-16, V-CRC-19
theorem test_crcVerifyApp_good : results (after .crcVerifyApp (host (digits ++ [0x29, 0xB1]) [])) 2 = [0x29B1, 1] := by decide
theorem test_crcVerifyApp_short :
    results (after .crcVerifyApp (host [0x29] [])) 2 = [0, 0] ∧
    report (after .crcVerifyApp (host [0x29] [])) = (0x00130001, 0) := by decide
-- V-PAR-4, V-PAR-3
theorem test_parCalc_seven : results (after .parCalc (host [1, 2, 3, 4, 5, 6, 7] [])) 1 = [0x1E] := by decide
theorem test_parCalc_wrap : results (after .parCalc (host [0x80] [])) 1 = [0x01] := by decide
-- V-PAR-18, V-PAR-15
theorem test_parVerify_prefix : results (after .parVerify (host [1, 2, 0, 0xFF] [(0, 2)])) 2 = [0, 1] := by decide
theorem test_parVerify_short :
    report (after .parVerify (host [0x41, 0x42, 0x43, 0x44, 0x45, 0x46, 0x47] [(0, 7)])) = (0x00210402, 8) := by decide
-- V-CLTU-E2, V-CLTU-E1
theorem test_cltuEnc_fill : outputString (after .cltuEnc (host [0x01] [])) = unit1 := by decide
theorem test_cltuEnc_empty :
    outputString (after .cltuEnc (host [] [])) = [0xEB, 0x90, 0xC5, 0xC5, 0xC5, 0xC5, 0xC5, 0xC5, 0xC5] := by decide
-- by 43_cltu.md R153: the unit V-CLTU-E2 with E = 0, and the unit V-CLTU-E3 with byte 3 changed from 42 to 43
theorem test_cltuDec_strip : outputString (after .cltuDec (host unit1 [(0, 0)])) = [0x01] := by decide
theorem test_cltuDec_parity : report (after .cltuDec (host (unit7.set 3 0x43) [])) = (0x00311302, 0) := by decide
-- V-CLTU-S1, V-CLTU-S2
theorem test_cltuSize_frame : results (after .cltuSize (host [] [(0, 1115)])) 1 = [1289] := by decide
theorem test_cltuSize_range : report (after .cltuSize (host [] [(0, 0x01000000)])) = (0x00320302, 0) := by decide
-- V-CLTU-B1
theorem test_cltuBlocks_frame : results (after .cltuBlocks (host [] [(0, 1115)])) 1 = [160] := by decide
theorem test_cltuBlocks_max : results (after .cltuBlocks (host [] [(0, 0xFFFFFFFF)])) 1 = [613566757] := by decide
-- V-SCR-5, V-SCR-8
theorem test_scrRand_hello :
    outputString (after .scrRand (host [0x48, 0x45, 0x4C, 0x4C, 0x4F] [])) = [0xB7, 0x27, 0x75, 0xB7, 0x5E] := by decide
theorem test_scrRand_empty : (after .scrRand { host [] [] with outLen := 3 }).outLen = 0 := by decide
-- V-SCR-10
theorem test_scrRandIp_zeros :
    inputString (after .scrRandIp (host [0, 0, 0, 0] [])) = [0xFF, 0x62, 0x39, 0xFB] ∧
    (after .scrRandIp { host [0, 0, 0, 0] [] with outLen := 3 }).outLen = 3 := by decide
-- V-SCR-9
theorem test_scrDerand_hello :
    outputString (after .scrDerand (host [0xB7, 0x27, 0x75, 0xB7, 0x5E] [])) = [0x48, 0x45, 0x4C, 0x4C, 0x4F] := by decide
-- V-SCR-11
theorem test_scrDerandIp_zeros :
    inputString (after .scrDerandIp (host [0xFF, 0x62, 0x39, 0xFB] [])) = [0, 0, 0, 0] := by decide
-- V-SCR-1's first bytes, V-SCR-4
theorem test_scrSeq_first : outputString (after .scrSeq (host [] [(0, 4)])) = [0xFF, 0x62, 0x39, 0xFB] := by decide
theorem test_scrSeq_overflow : report (after .scrSeq (host [] [(0, 4097)])) = (0x00440502, 4097) := by decide
-- V-FH-7, V-FH-10
theorem test_fhParse_fields :
    results (after .fhParse (host [0x0B, 0x92, 1, 2, 0x80, 0] [])) 10 = [0, 185, 1, 0, 1, 2, 0x8000, 0x0102, 1, 0] := by decide
theorem test_fhParse_short : report (after .fhParse (host [0x0B, 0x92, 1, 2, 0x80] [])) = (0x00500402, 6) := by decide
-- V-FH-11, V-FH-12
theorem test_fhScid_max : results (after .fhScid (host [0x3F, 0xFF] [])) 1 = [1023] := by decide
theorem test_fhScid_short : report (after .fhScid (host [0x0B] [])) = (0x00510402, 2) := by decide
-- V-FH-13
theorem test_fhVcid_one : results (after .fhVcid (host [0x0B, 0x92] [])) 1 = [1] := by decide
-- V-FH-14, V-FH-15
theorem test_fhCount_combined : results (after .fhCount (host [0x0B, 0x92, 1, 2] [])) 1 = [0x0102] := by decide
theorem test_fhCount_short : report (after .fhCount (host [0x0B, 0x92, 1] [])) = (0x00530402, 4) := by decide
-- V-FH-17, V-FH-18
theorem test_fhValid_version :
    results (after .fhValid (host [0x4B, 0x90, 0, 0, 0, 0] [])) 1 = [0] ∧
    results (after .fhValid (host [0x0B, 0x90, 0, 0, 0, 0] [])) 1 = [1] := by decide
theorem test_fhValid_short : report (after .fhValid (host [0x0B, 0x90, 0, 0, 0] [])) = (0x00540001, 0) := by decide
-- V-FH-19, V-FH-20
theorem test_fhIsCmd_set : results (after .fhIsCmd (host [0x0B, 0x92, 1, 2, 0x80, 0] [])) 1 = [1] := by decide
theorem test_fhIsCmd_clear : results (after .fhIsCmd (host [0x3F, 0xFF, 0xFF, 0xFF, 0x7F, 0xFF] [])) 1 = [0] := by decide
theorem test_fhIsTm_set : results (after .fhIsTm (host [0x0B, 0x92, 1, 2, 0x80, 0] [])) 1 = [0] := by decide
theorem test_fhIsTm_clear : results (after .fhIsTm (host [0x3F, 0xFF, 0xFF, 0xFF, 0x7F, 0xFF] [])) 1 = [1] := by decide
-- V-FH-3, V-FH-4
theorem test_fhBuild_fields :
    outputString (after .fhBuild (host [] [(0, 185), (1, 1), (2, 0x0102), (3, 0x8000)])) = [0x0B, 0x92, 1, 2, 0x80, 0] := by
  decide
theorem test_fhBuild_order : report (after .fhBuild (host [] [(0, 1024), (1, 8)])) = (0x00570302, 0) := by decide
-- V-FB-7, V-FB-9
theorem test_tmBuild_ocf :
    outputString (after .tmBuild (host [1, 2, 3] [(0, 1023), (1, 7), (2, 65535), (4, 1), (5, 0x00040005), (6, 20)])) =
      [0x3F, 0xFF, 0xFF, 0xFF, 0, 0, 1, 2, 3, 0, 0, 0, 0, 0, 0, 4, 0, 5, 0xE8, 0xE6] := by decide
theorem test_tmBuild_small : report (after .tmBuild (host [] [(4, 1), (6, 12)])) = (0x00580302, 6) := by decide
-- V-FB-3, V-FB-4
theorem test_tcBuild_truncates :
    outputString (after .tcBuild (host [0x41, 0x42, 0x43, 0x44, 0x45, 0x46, 0x47, 0x48, 0x49, 0x4A] [(0, 185), (6, 12)])) =
      [0x0B, 0x90, 0, 0, 0, 0, 0x41, 0x42, 0x43, 0x44, 0xCD, 0xCB] := by decide
theorem test_tcBuild_small : report (after .tcBuild (host [] [(6, 8)])) = (0x00590302, 6) := by decide
-- V-CLCW-4, V-CLCW-6
theorem test_clcwEnc_simple : results (after .clcwEnc (host [] [(0, 1), (1, 5)])) 1 = [0x00040005] := by decide
theorem test_clcwEnc_range : report (after .clcwEnc (host [] [(0, 63), (1, 256)])) = (0x00600302, 1) := by decide
-- V-CLCW-7, V-CLCW-9
theorem test_clcwEncFull_max :
    results (after .clcwEncFull (host [] [(0, 1), (1, 3), (2, 7), (3, 3), (4, 63), (5, 1), (6, 1), (7, 1), (8, 1), (9, 1),
      (10, 3), (11, 255)])) 1 = [0xFFFCFEFF] := by decide
theorem test_clcwEncFull_range : report (after .clcwEncFull (host [] [(2, 8)])) = (0x00610302, 2) := by decide
-- V-CLCW-10, V-CLCW-12
theorem test_clcwDec_nominal :
    results (after .clcwDec (host [] [(0, 0x00000005)])) 13 = [0, 0, 0, 0, 0, 0, 0, 0, 0, 0, 0, 5, 1] := by decide
theorem test_clcwDec_ones :
    results (after .clcwDec (host [] [(0, 0xFFFFFFFF)])) 13 = [1, 3, 7, 3, 63, 1, 1, 1, 1, 1, 3, 255, 0] := by decide
-- V-CLCW-13
theorem test_clcwNominal_flag : results (after .clcwNominal (host [] [(0, 0x00000805)])) 1 = [0] := by decide
theorem test_clcwNominal_spare : results (after .clcwNominal (host [] [(0, 0x00030100)])) 1 = [1] := by decide

-- program P4, steps 6 to 8: an illegal command; a bus error changes nothing
theorem test_illegal_command : report (stepped (asked State.reset (.writeWord 0 0x45))) = (0x00450102, 0x45) := by decide
theorem test_reserved_register :
    (stepped (asked State.reset (.read 0x03C .four))).response = .busError .registerReserved := by decide
-- program P3, steps 17 and 18
theorem test_misaligned_read :
    (stepped (asked State.reset (.read 0x1000E .four))).response = .busError .bufferMisaligned := by decide
-- 20_memory.md R52, R53, R56: the other bus errors
theorem test_register_byte :
    (stepped (asked State.reset (.read 0x004 .one))).response = .busError .registerByteAccess := by decide
theorem test_register_misaligned :
    (stepped (asked State.reset (.writeWord 0x002 0x10))).response = .busError .registerMisaligned := by decide
theorem test_buffer_beyond :
    (stepped (asked State.reset (.writeByte 0x11000 0))).response = .busError .bufferBeyondCapacity := by decide
theorem test_reserved_region :
    (stepped (asked State.reset (.read 0x3FFFC .four))).response = .busError .reservedRegion := by decide
-- program P1, step 1: big-endian (20_memory.md R54)
theorem test_word_write_is_big_endian :
    (stepped (asked State.reset (.writeWord 0x10000 0x31323334))).inBuf = ⟨placeAt 0 [0x31, 0x32, 0x33, 0x34]⟩ := by decide
-- 10_state.md R27
theorem test_in_cap_reads : (stepped (asked State.reset (.read 0x014 .four))).response = .word 4096 := by decide
-- 20_memory.md R51: the last offset of the window, and the first address past it
theorem test_window_last : windowOffset (Config.base + 0x3FFFF) = some 0x3FFFF := by
  simp [windowOffset]
theorem test_window_end : windowOffset (Config.base + 0x40000) = none := by
  simp [windowOffset]

-- 30_encoding.md R94: the last IN and OUT statements of the window, and the first past it (log entry 13)
theorem test_statement_last_offset :
    stmtAccess (.wrb 0x2FFFF 7) = some (.writeByte 0x3FFFF 7) ∧
    stmtAccess (.rdb .output 0x1FFFF) = some (.read 0x3FFFF .one) := by decide
theorem test_statement_past_window :
    stmtAccess (.wrw 0x30000 0x10) = none ∧ stmtAccess (.rdw 0x20000) = none ∧
    (State.reset.enqueue [.wrw 0x30000 0x10]).pending = [] := by decide

-- program P4, step 1: LOADIN "HELLO" (30_encoding.md R95)
theorem test_load_text :
    expand State.reset (.loadText "HELLO") =
      [.wrb 0 0x48, .wrb 1 0x45, .wrb 2 0x4C, .wrb 3 0x4C, .wrb 4 0x4F, .wr .inLen 5] := by decide

/-! Witnesses: for every obligation with hypotheses, concrete states and operands that meet all of them -/

theorem witness_EncodedCommandDecodesToItself : Instr.clcwNominal.wf = true := rfl

theorem witness_StepRunsTheDecodedCommand :
    (asked State.reset (.writeWord 0 0x00000013)).pending = .access (.writeWord 0 0x00000013) :: [] ∧
    decodeWord 0x00000013 = .ok .crcVerifyApp := ⟨rfl, rfl⟩

theorem witness_IllegalCommandFailsWithTheWord :
    (asked State.reset (.writeWord 0 0x00000014)).pending = .access (.writeWord 0 0x00000014) :: [] ∧
    ∀ i, (0x00000014 : Word) ≠ encode i :=
  ⟨rfl, fun i => by cases i <;> decide⟩

theorem witness_EveryStepAnswersNext : State.reset.pending = [] := rfl

theorem witness_StatusAfterAnyOperation :
    (∃ t, exec .clcwDec State.reset = .next t ∧ doneFlag t.status = true) ∧
    (∃ t, exec .fhScid State.reset = .next t ∧ errFlag t.status = true) :=
  ⟨⟨_, rfl, by decide⟩, ⟨_, rfl, by decide⟩⟩

theorem witness_FailedCommandChangesOnlyItsReport :
    ∃ t, exec .clcwEnc (host [] [(0, 64)]) = .next t ∧ errFlag t.status = true := ⟨_, rfl, by decide⟩

theorem witness_InputLengthIsCheckedFirst :
    Instr.tcBuild ∈ [Instr.crcCalc, .crcVerify, .crcAppend, .crcVerifyApp, .parCalc, .parVerify, .cltuEnc, .cltuDec,
      .scrRand, .scrRandIp, .scrDerand, .scrDerandIp, .fhParse, .fhScid, .fhVcid, .fhCount, .fhValid, .fhIsCmd,
      .fhIsTm, .tmBuild, .tcBuild] ∧
    ({ State.reset with inLen := 4097 } : State).params.inCap < ({ State.reset with inLen := 4097 } : State).inLen.toNat := by
  decide

theorem witness_OnlyInPlaceScramblersWriteIn :
    (∃ t, exec .scrRand (host [0] []) = .next t ∧ Instr.scrRand ≠ .scrRandIp ∧ Instr.scrRand ≠ .scrDerandIp) ∧
    (∃ t, exec .scrRandIp (host [0] []) = .next t ∧ (host [0] []).inLen.toNat ≤ 1) :=
  ⟨⟨_, rfl, by decide⟩, ⟨_, rfl, by decide⟩⟩

theorem witness_OnlyOutputOperationsWriteOut :
    (host [] []).params.wf ∧
    (∃ t, exec .crcAppend (host [] []) = .next t ∧ t.outLen.toNat ≤ 2) ∧
    (∃ t, exec .crcCalc (host [] []) = .next t ∧
      Instr.crcCalc ∉ [Instr.crcAppend, .cltuEnc, .cltuDec, .scrRand, .scrDerand, .scrSeq, .fhBuild, .tmBuild, .tcBuild]) ∧
    (∃ t, exec .scrSeq (host [] [(0, 4097)]) = .next t ∧ doneFlag t.status = false) :=
  ⟨by decide, ⟨_, rfl, by decide⟩, ⟨_, rfl, by decide⟩, ⟨_, rfl, by decide⟩⟩

theorem witness_UnnamedResultsAreUnchanged :
    (∃ t, exec .scrSeq State.reset = .next t) ∧ (∃ t, exec .crcVerify State.reset = .next t ∧ 1 < (2 : Fin 16).val) ∧
    (∃ t, exec .fhParse (host [0, 0, 0, 0, 0, 0] []) = .next t ∧ 9 < (10 : Fin 16).val) ∧
    (∃ t, exec .clcwDec State.reset = .next t ∧ 12 < (13 : Fin 16).val) ∧
    (∃ t, exec .crcCalc State.reset = .next t ∧ 0 < (1 : Fin 16).val) ∧
    (∃ t, exec .fhParse State.reset = .next t ∧ errFlag t.status = true) :=
  ⟨⟨_, rfl⟩, ⟨_, rfl, by decide⟩, ⟨_, rfl, by decide⟩, ⟨_, rfl, by decide⟩, ⟨_, rfl, by decide⟩, ⟨_, rfl, by decide⟩⟩

theorem witness_OutcomeDependsOnlyOnTheOperands :
    let s := host [1, 2] [(0, 7)]
    let t := { s with status := 0x00100001, outLen := 1, outBuf := ⟨[(0, 9)]⟩, res := Vector.replicate 16 5 }
    s.params = t.params ∧ s.inLen = t.inLen ∧ (∀ k, s.getArg k = t.getArg k) ∧
    (∀ a < s.inLen.toNat, s.inByte a = t.inByte a) :=
  ⟨rfl, rfl, fun _ => rfl, fun _ _ => rfl⟩

theorem witness_ResetClearsTheBlock : ({ State.reset with pending := [.reset] } : State).pending = .reset :: [] := rfl

theorem witness_EveryStepKeepsInv :
    (asked State.reset (.writeWord 0 0x00000012)).Inv ∧
    ∃ t, step (asked State.reset (.writeWord 0 0x00000012)) = .next t ∧ t.outLen = 2 :=
  ⟨by decide, _, rfl, by decide⟩

theorem witness_CrcVerifyAppResult :
    2 ≤ (host [0xFF, 0xFF] []).inLen.toNat ∧
    crc16 (inputString (host [0xFF, 0xFF] [])) = 0 ∧ crc16 (inputString (host [0xFF, 0xFE] [])) ≠ 0 := by decide

theorem witness_ParityDetectsOneChangedByte : 0 < [(0x01 : Byte)].length ∧ (0x02 : Byte) ≠ byteAt [0x01] 0 := by decide

theorem witness_CltuDecResult_failing_block :
    let b := inputString (host (unit7.set 9 0xA0) [])
    (host (unit7.set 9 0xA0) []).inLen.toNat = 17 ∧ parity ((b.drop 2).take 7) ≠ byteAt b 9 := by decide

/-- The state that decodes the unit of the payload `p` with the expected length `e`. -/
def decoding (p : List Byte) (e : Word) : State := host (cltuEncode p) [(0, e)]

/-- E = |p|, and E = 0 for a payload that does not end, and for one that ends, in the fill byte, and for an empty one. -/
theorem witness_CltuRoundTrip :
    (∀ c ∈ [([(0x48 : Byte)], (1 : Word)), ([0x48], 0), ([0x55], 0), ([], 0)],
      (decoding c.1 c.2).params.wf ∧ inputString (decoding c.1 c.2) = cltuEncode c.1 ∧
      (cltuEncode c.1).length ≤ (decoding c.1 c.2).params.inCap ∧
      (cltuEncode c.1).length ≤ (decoding c.1 c.2).params.outCap) ∧
    argNat (decoding [0x48] 1) 0 = [(0x48 : Byte)].length ∧ argNat (decoding [0x48] 0) 0 = 0 := by decide

/-- Every kind of byte: the first and the last of the start marker, of a code block, and of the tail. -/
theorem witness_CltuDetectsOneChangedByte :
    (∃ t, exec .cltuDec (host unit7 []) = .next t ∧ t.status = 0x00310001) ∧
    (∃ t, exec .cltuDec { host unit7 [] with params := ⟨17, 6⟩ } = .next t ∧ t.status = 0x00310502) ∧
    ∀ k ∈ [0, 1, 2, 9, 10, 16],
      let u := host (unit7.set k 0x00) []
      u.params = (host unit7 []).params ∧ u.inLen = (host unit7 []).inLen ∧ k < (host unit7 []).inLen.toNat ∧
      (0x00 : Byte) ≠ (host unit7 []).inByte k ∧ inputString u = (inputString (host unit7 [])).set k 0x00 ∧
      (k < 2 ∨ (host unit7 []).inLen.toNat - 7 ≤ k ∨ (2 ≤ k ∧ k < (host unit7 []).inLen.toNat - 7)) :=
  ⟨⟨_, rfl, by decide⟩, ⟨_, rfl, by decide⟩, by decide⟩

theorem witness_CltuTwoChanges :
    let b := unit7.set 2 0x40
    b.length ≤ (host b []).params.inCap ∧ 7 ≤ (host b []).params.outCap ∧ inputString (host b []) = b := by decide

theorem witness_CopyingScramblersResult : 1 < [(0x48 : Byte), 0x45].length := by decide

theorem witness_InPlaceScramblersResult : 1 < (host [0x48, 0x45] []).inLen.toNat := by decide

theorem witness_ScramblerSequencePeriod : 1 ≤ 1 ∧ 1 + 21 < 23 ∧ 0 < 1 := by decide

theorem witness_ScrSeqResult : 22 ≤ 23 := by decide

theorem witness_ScrambleTwiceIsIdentity : (host [1, 2] []).inLen.toNat ≤ (host [1, 2] []).params.inCap := by decide

/-- FH_PARSE's input right after a builder: the first six bytes of OUT, copied. -/
def parsed (t : State) : State := host ((List.range 6).map t.outByte) []

theorem witness_HeaderRoundTrip :
    (∃ t, exec .fhBuild (host [] [(0, 1023), (4, 1)]) = .next t ∧ doneFlag t.status = true ∧
      (parsed t).inLen.toNat ≤ (parsed t).params.inCap ∧ 6 ≤ (parsed t).inLen.toNat ∧
      ∀ a < 6, (parsed t).inByte a = t.outByte a) ∧
    (∃ t, exec .tmBuild (host [] [(1, 7), (6, 9)]) = .next t ∧ doneFlag t.status = true ∧
      (parsed t).inLen.toNat ≤ (parsed t).params.inCap ∧ 6 ≤ (parsed t).inLen.toNat ∧
      ∀ a < 6, (parsed t).inByte a = t.outByte a) ∧
    (∃ t, exec .tcBuild (host [] [(2, 65535), (6, 9)]) = .next t ∧ doneFlag t.status = true ∧
      (parsed t).inLen.toNat ≤ (parsed t).params.inCap ∧ 6 ≤ (parsed t).inLen.toNat ∧
      ∀ a < 6, (parsed t).inByte a = t.outByte a) :=
  ⟨⟨_, rfl, by decide⟩, ⟨_, rfl, by decide⟩, ⟨_, rfl, by decide⟩⟩

theorem witness_FecfLaw :
    (host [] [(6, 9)]).params.wf ∧
    (∃ t, exec .tmBuild (host [] [(6, 9)]) = .next t ∧ doneFlag t.status = true ∧
      (host (outputString t) []).inLen.toNat ≤ (host (outputString t) []).params.inCap ∧
      inputString (host (outputString t) []) = outputString t) ∧
    (∃ t, exec .tcBuild (host [] [(6, 9)]) = .next t ∧ doneFlag t.status = true) :=
  ⟨by decide, ⟨_, rfl, by decide⟩, ⟨_, rfl, by decide⟩⟩

/-- The first and the last field above its maximum, and every field at its maximum. -/
theorem witness_ClcwEncFullResult :
    let max := [1, 3, 7, 3, 63, 1, 1, 1, 1, 1, 3, 255]
    let full := host [] [(0, 1), (1, 3), (2, 7), (3, 3), (4, 63), (5, 1), (6, 1), (7, 1), (8, 1), (9, 1), (10, 3), (11, 255)]
    max.getD 0 0 < argNat (host [] [(0, 2)]) 0 ∧
    (max.getD 11 0 < argNat (full.setArg 11 256) 11 ∧
      ∀ j : Fin 16, j.val < 11 → argNat (full.setArg 11 256) j ≤ max.getD j.val 0) ∧
    ∀ k : Fin 16, k.val < 12 → argNat full k ≤ max.getD k.val 0 := by decide

theorem witness_ClcwRoundTrip :
    (∃ t, exec .clcwEnc (host [] [(0, 63), (1, 255)]) = .next t ∧ doneFlag t.status = true ∧
      (host [] [(0, t.getRes 0)]).getArg 0 = t.getRes 0) ∧
    (∃ t, exec .clcwEncFull (host [] [(0, 1), (11, 255)]) = .next t ∧ doneFlag t.status = true ∧
      (host [] [(0, t.getRes 0)]).getArg 0 = t.getRes 0) :=
  ⟨⟨_, rfl, by decide⟩, ⟨_, rfl, by decide⟩⟩

/-- An access the address map refuses is not legal. -/
theorem not_legal (p : Params) (a : Width) (off : Offset) (f : Fault) (h : target p a off = .error f) :
    ¬legalAccess p a off.toNat := by
  rw [← target_isOk_iff]
  rintro ⟨t, ht⟩
  rw [h] at ht
  cases ht

/-- Each cause: a byte or a misaligned or a reserved register access, a misaligned or too high buffer access, and the
reserved region. -/
theorem witness_IllegalAccessIsABusError :
    ∀ a ∈ [Access.read 0x004 .one, .writeWord 0x002 0, .read 0x0C0 .four, .writeWord 0x10002 0, .writeByte 0x11000 0,
        .read 0x20FFF .four, .read 0x30000 .one],
      (asked State.reset a).pending = .access a :: [] ∧
      ¬legalAccess (asked State.reset a).params (accessWidth a) (accessOffset a) := by
  intro a ha
  refine ⟨rfl, ?_⟩
  simp only [List.mem_cons, List.mem_nil_iff, or_false] at ha
  rcases ha with rfl | rfl | rfl | rfl | rfl | rfl | rfl
  · exact not_legal _ .one 0x004 .registerByteAccess (by simp [target, registerTarget])
  · exact not_legal _ .four 0x002 .registerMisaligned (by simp [target, registerTarget])
  · exact not_legal _ .four 0x0C0 .registerReserved (by simp [target, registerTarget, regAt])
  · exact not_legal _ .four 0x10002 .bufferMisaligned (by simp [target, bufferTarget, widthBytes])
  · exact not_legal _ .one 0x11000 .bufferBeyondCapacity (by simp [target, bufferTarget, widthBytes, Params.cap, asked, State.reset, Params.standard])
  · exact not_legal _ .four 0x20FFF .bufferMisaligned (by simp [target, bufferTarget, widthBytes])
  · exact not_legal _ .one 0x30000 .reservedRegion (by simp [target])

/-- Each named register, and the first and last of ARG and RES. -/
theorem witness_RegisterReadAnswersTheRegister :
    ∀ off ∈ [(0x000 : Offset), 0x004, 0x008, 0x00C, 0x010, 0x014, 0x018, 0x040, 0x07C, 0x080, 0x0BC],
      (asked State.reset (.read off .four)).pending = .access (.read off .four) :: [] ∧
      (off.toNat ∈ [0x000, 0x004, 0x008, 0x00C, 0x010, 0x014, 0x018] ∨
        (∃ k : Fin 16, off.toNat = 0x040 + 4 * k.val) ∨ ∃ k : Fin 16, off.toNat = 0x080 + 4 * k.val) := by
  intro off h
  simp only [List.mem_cons, List.mem_nil_iff, or_false] at h
  rcases h with rfl | rfl | rfl | rfl | rfl | rfl | rfl | rfl | rfl | rfl | rfl <;> exact ⟨rfl, by decide⟩

/-- The last byte and the last word of each buffer. -/
theorem witness_BufferReadIsBigEndian :
    (asked State.reset (.read 0x10FFF .one)).pending = .access (.read 0x10FFF .one) :: [] ∧
    (0x10FFF : Offset).toNat = 0x10000 + 4095 ∧ 4095 < State.reset.params.inCap ∧
    (asked State.reset (.read 0x20FFC .four)).pending = .access (.read 0x20FFC .four) :: [] ∧
    (0x20FFC : Offset).toNat = 0x20000 + 4092 ∧ 4092 % 4 = 0 ∧ 4092 + 3 < State.reset.params.outCap := by decide

theorem witness_RegisterWriteStoresOrIsIgnored :
    ∀ r ∈ [Reg.inLen, .arg 0, .arg 15, .status, .errInfo, .outLen, .inCap, .outCap, .res 0, .res 15],
      (BitVec.ofNat 18 (regOffset r)).toNat = regOffset r ∧
      (asked State.reset (.writeWord (BitVec.ofNat 18 (regOffset r)) 1)).pending =
        .access (.writeWord (BitVec.ofNat 18 (regOffset r)) 1) :: [] := by decide

theorem witness_BufferWriteStoresInOnly :
    ((0x10FFF : Offset).toNat = 0x10000 + 4095 ∧
      legalAccess State.reset.params .one (accessOffset (.writeByte 0x10FFF 7))) ∧
    ((0x10FFC : Offset).toNat = 0x10000 + 4092 ∧
      legalAccess State.reset.params .four (accessOffset (.writeWord 0x10FFC 7))) ∧
    ((0x20000 : Offset).toNat = 0x20000 + 0 ∧
      legalAccess State.reset.params .four (accessOffset (.writeWord 0x20000 7))) ∧
    (asked State.reset (.writeByte 0x10FFF 7)).pending = .access (.writeByte 0x10FFF 7) :: [] :=
  ⟨⟨by decide, .inr (.inl ⟨4095, by decide⟩)⟩, ⟨by decide, .inr (.inl ⟨4092, by decide⟩)⟩,
    ⟨by decide, .inr (.inr ⟨0, by decide⟩)⟩, rfl⟩

theorem witness_OnlyCommandsWriteTheReport :
    (∀ v, Access.writeWord 0x00C 5 ≠ .writeWord 0 v) ∧
    ∃ t, step (asked State.reset (.writeWord 0x00C 5)) = .next t ∧ t.inLen = 5 :=
  ⟨fun v h => absurd (Access.writeWord.inj h).1 (by decide), _, rfl, by decide⟩

/-- The state that CRC_APPEND of "123" leaves: it meets MOVEOUT's hypotheses, and MOVEOUT runs from it. -/
def filled : State := { after .crcAppend (host [0x31, 0x32, 0x33] []) with cmd := 0x00000012, pending := [] }

theorem witness_MoveOutCopiesOutToIn :
    filled.Inv ∧ filled.pending = [] ∧ filled.outLen.toNat ≤ filled.params.inCap ∧ filled.outLen = 5 := by decide

theorem test_moveOut_runs :
    ∃ t, runsTo (expand filled .moveOut).length (filled.enqueue (expand filled .moveOut)) t ∧
      inputString t = outputString filled := ⟨_, rfl, by decide⟩

end Sys2Proof.Tests
end

section
/-! PROOF. The report of a finished command: the fields of the two shapes of STATUS, the code an operation can fail
with, and what the end of a command leaves unchanged (10_state.md R23, 30_encoding.md R90, 60_exceptions.md R270). -/

namespace Sys2Proof.Machine

/-! The two shapes of STATUS -/

theorem statusDone_toNat (op : Byte) : (statusDone op).toNat = op.toNat * 2 ^ 16 + 1 := by
  have := op.isLt
  rw [← or_eq_add _ _ _ (by omega)]
  simp only [statusDone, BitVec.toNat_or, BitVec.toNat_shiftLeft, BitVec.toNat_setWidth, BitVec.toNat_ofNat,
    Nat.shiftLeft_eq]
  congr 1
  omega

theorem statusFailed_toNat (op code : Byte) :
    (statusFailed op code).toNat = op.toNat * 2 ^ 16 + (code.toNat * 2 ^ 8 + 2) := by
  have := op.isLt
  have := code.isLt
  rw [← or_eq_add _ _ 16 (by omega), ← or_eq_add _ 2 8 (by omega), ← Nat.or_assoc]
  simp only [statusFailed, BitVec.toNat_or, BitVec.toNat_shiftLeft, BitVec.toNat_setWidth, BitVec.toNat_ofNat,
    Nat.shiftLeft_eq]
  congr 2 <;> omega

/-- The fields of a STATUS word made of an opcode, a code and two flag bits (10_state.md R23). -/
theorem statusFields_of_toNat {status : Word} {op code : Byte} {flags : Nat} (hflags : flags < 4)
    (h : status.toNat = op.toNat * 2 ^ 16 + (code.toNat * 2 ^ 8 + flags)) :
    status.extractLsb' 2 6 = 0 ∧ status.extractLsb' 24 8 = 0 ∧ errCodeField status = code ∧
      lastOpField status = op := by
  have := op.isLt
  have := code.isLt
  refine ⟨?_, ?_, ?_, ?_⟩ <;> apply BitVec.eq_of_toNat_eq <;>
    simp only [errCodeField, lastOpField, BitVec.extractLsb'_toNat, Nat.shiftRight_eq_div_pow, h,
      BitVec.ofNat_eq_ofNat, BitVec.toNat_ofNat] <;>
    omega

theorem statusDone_fields (op : Byte) :
    (statusDone op).extractLsb' 2 6 = 0 ∧ (statusDone op).extractLsb' 24 8 = 0 ∧
      errCodeField (statusDone op) = 0 ∧ lastOpField (statusDone op) = op :=
  statusFields_of_toNat (flags := 1) (by omega) (statusDone_toNat op)

theorem statusFailed_fields (op code : Byte) :
    (statusFailed op code).extractLsb' 2 6 = 0 ∧ (statusFailed op code).extractLsb' 24 8 = 0 ∧
      errCodeField (statusFailed op code) = code ∧ lastOpField (statusFailed op code) = op :=
  statusFields_of_toNat (flags := 2) (by omega) (statusFailed_toNat op code)

/-! Error codes (60_exceptions.md R271) -/

theorem toByte_mem_errCodes (c : ErrCode) : c.toByte ∈ errCodes := by
  cases c <;> decide

theorem toByte_ne_zero (c : ErrCode) : c.toByte ≠ 0#8 := by
  cases c <;> decide

/-- ILLEGAL_OP apart, the codes are those of executed operations. -/
theorem toByte_mem_of_ne_illegalOp (c : ErrCode) (h : c ≠ .illegalOp) :
    c.toByte.setWidth 32 ∈ [(0x02 : Word), 0x03, 0x04, 0x05, 0x10, 0x11, 0x12, 0x13] := by
  cases c with
  | illegalOp => exact absurd rfl h
  | _ => decide

/-! What the end of a command leaves unchanged -/

section
variable (s : State) (op : Byte) (w : Writes) (e : CmdError)

@[simp] theorem complete_status : (s.complete op w).status = statusDone op := rfl
@[simp] theorem complete_errInfo : (s.complete op w).errInfo = 0 := rfl
@[simp] theorem complete_outLen : (s.complete op w).outLen = (s.commitWrites w).outLen := rfl
@[simp] theorem complete_inBuf : (s.complete op w).inBuf = (s.commitWrites w).inBuf := rfl
@[simp] theorem complete_outBuf : (s.complete op w).outBuf = (s.commitWrites w).outBuf := rfl
@[simp] theorem complete_getRes (k : Fin 16) : (s.complete op w).getRes k = (s.commitWrites w).getRes k := rfl
@[simp] theorem complete_inByte (a : Nat) : (s.complete op w).inByte a = (s.commitWrites w).inByte a := rfl
@[simp] theorem complete_outByte (a : Nat) : (s.complete op w).outByte a = (s.commitWrites w).outByte a := rfl

@[simp] theorem takeError_status : (s.takeError op e).status = statusFailed op e.code.toByte := rfl
@[simp] theorem takeError_outLen : (s.takeError op e).outLen = s.outLen := rfl
@[simp] theorem takeError_getRes (k : Fin 16) : (s.takeError op e).getRes k = s.getRes k := rfl
@[simp] theorem takeError_inByte (a : Nat) : (s.takeError op e).inByte a = s.inByte a := rfl
@[simp] theorem takeError_outByte (a : Nat) : (s.takeError op e).outByte a = s.outByte a := rfl

/-- Committing writes the input string, if there is one, to IN from index 0. -/
theorem commitWrites_inBuf :
    (s.commitWrites w).inBuf = (match w.input with | some r => s.inBuf.write 0 r | none => s.inBuf) := by
  obtain ⟨results, _ | r, _ | x⟩ := w <;> simp [State.commitWrites]

/-- Committing writes the output string, if there is one, to OUT from index 0. -/
theorem commitWrites_outBuf :
    (s.commitWrites w).outBuf = (match w.output with | some r => s.outBuf.write 0 r | none => s.outBuf) := by
  obtain ⟨results, _ | r, _ | x⟩ := w <;> simp [State.commitWrites]

theorem complete_hostSideKept : hostSideKept s (s.complete op w) := by
  obtain ⟨-, -, -, -, -, -, hkept⟩ := complete_effect s op w
  exact hkept

theorem takeError_hostSideKept : hostSideKept s (s.takeError op e) := ⟨rfl, rfl, fun _ => rfl, rfl, rfl, rfl, rfl⟩

end

/-- No operation stops the machine. -/
theorem exec_answers_next (i : Instr) (s : State) : ∃ t, exec i s = .next t := by
  rw [exec_eq_runCommand]
  cases commandBody i s with
  | ok w => exact ⟨_, rfl⟩
  | error e => exact ⟨_, rfl⟩

theorem exec_hostSideKept {i : Instr} {s t : State} (h : exec i s = .next t) : hostSideKept s t := by
  rcases exec_next_cases i s t h with ⟨w, -, rfl⟩ | ⟨e, -, rfl⟩
  · exact complete_hostSideKept s _ w
  · exact takeError_hostSideKept s _ e

/-- Inside the numbers a register holds, OUT_LEN counts the output string (10_state.md R26). -/
theorem commitWrites_outLen_toNat {s : State} {w : Writes} {r : List Byte} (hp : s.params.wf) (ho : w.output = some r)
    (hr : r.length ≤ s.params.outCap) : (s.commitWrites w).outLen.toNat = r.length := by
  obtain ⟨-, -, hcap⟩ := hp
  rw [commitWrites_outLen, ho]
  exact Nat.mod_eq_of_lt (by omega)

/-- A register beyond those an operation names is none of its results. -/
theorem lookup_results_eq_none {i : Instr} {s : State} {w : Writes} (h : commandBody i s = .ok w) (k : Fin 16)
    (hk : namedResults i ≤ k.val) : w.results.lookup k = none := by
  rw [List.lookup_eq_none_iff]
  intro p hp
  have hlt := commandBody_results i s w h p hp
  exact bne_iff_ne.mpr (by rintro rfl; omega)

end Sys2Proof.Machine
end

section
/-! PROOF. The word a legal command is, and what the first event of the queue can do to the state: a command, a
register access, or one of four changes of the host's side (20_memory.md R50 to R57). -/

namespace Sys2Proof.Machine

/-! The command word (30_encoding.md R80, R81) -/

theorem opcodeTable_word_eq_encode : ∀ p ∈ opcodeTable, p.1 = encode p.2 := by
  decide

/-- A command word that selects an operation is that operation's word. -/
theorem eq_encode_of_selectCommand {w : Word} {i : Instr} (h : selectCommand w = some i) : w = encode i := by
  have hd : decodeWord w = .ok i := by
    unfold selectCommand at h
    split at h <;> cases h
    assumption
  unfold decodeWord at hd
  split at hd
  · cases hd
  split at hd
  · rename_i j hj
    cases hd
    obtain ⟨before, after, ht, -⟩ := List.lookup_eq_some_iff.mp hj
    exact opcodeTable_word_eq_encode (w, i) (by simp [ht])
  · split at hd <;> cases hd

theorem encode_low_byte (i : Instr) : (encode i).extractLsb' 0 8 = i.opcode := by
  cases i <;> rfl

theorem runWord_of_decodeWord {w : Word} {i : Instr} (h : decodeWord w = .ok i) (s : State) :
    runWord w s = exec i s := by
  simp only [runWord, selectCommand, h]

/-! The registers -/

/-- A 4-byte access at a register's offset reaches that register. -/
theorem target_reg (p : Params) (r : Reg) (off : Offset) (h : off.toNat = regOffset r) :
    target p .four off = .ok (.reg r) :=
  (target_eq_ok p .four off (.reg r)).mpr (.inl ⟨rfl, r, rfl, h⟩)

@[simp] theorem readReg_withPending (s : State) (rest : List HostEvent) (r : Reg) :
    readReg (s.withPending rest) r = readReg s r := by
  cases r <;> rfl

/-- A 4-byte read at a register's offset answers the register and changes nothing else. -/
theorem step_readReg {s : State} {rest : List HostEvent} {off : Offset}
    (h : s.pending = .access (.read off .four) :: rest) (r : Reg) (hr : off.toNat = regOffset r) :
    step s = .next { s with pending := rest, response := .word (readReg s r) } := by
  rw [step_access s _ rest h, stepAccess_other _ (.read off .four) (fun _ => nofun), busAccess, target_reg _ r off hr]
  rw [← readReg_withPending s rest]
  rfl

/-- A 4-byte write at the offset of a register other than CMD is the register write alone. -/
theorem step_writeReg {s : State} {rest : List HostEvent} {off : Offset} {v : Word}
    (h : s.pending = .access (.writeWord off v) :: rest) (r : Reg) (hr : off.toNat = regOffset r) (hc : r ≠ .cmd) :
    step s = .next ((writeReg (s.withPending rest) r v).respond .written) := by
  have hoff : ∀ u, Access.writeWord off v ≠ .writeWord 0 u := by
    rintro u hu
    cases hu
    have hcmd := target_reg s.params r 0 hr
    rw [target_cmd] at hcmd
    cases hcmd
    exact hc rfl
  rw [step_access s _ rest h, stepAccess_other _ _ hoff, busAccess, target_reg _ r off hr]

/-! Any access but a write to CMD -/

/-- What a write of a register other than CMD can do: nothing, or store IN_LEN or one ARG register. -/
theorem writeReg_cases (s : State) (r : Reg) (v : Word) (hc : r ≠ .cmd) :
    writeReg s r v = s ∨ writeReg s r v = { s with inLen := v } ∨ ∃ i, writeReg s r v = s.setArg i v := by
  cases r with
  | cmd => exact absurd rfl hc
  | inLen => exact .inr (.inl rfl)
  | arg i => exact .inr (.inr ⟨i, rfl⟩)
  | _ => exact .inl rfl

/-- Of the state of the block, what one host access that is no write to CMD can change: nothing, IN_LEN, one ARG
register, or bytes of IN below its capacity. -/
def hostChange (s t : State) : Prop :=
  t = s ∨ (∃ v, t = { s with inLen := v }) ∨ (∃ i v, t = s.setArg i v) ∨
    ∃ i bs, i + bs.length ≤ s.params.inCap ∧ t = s.storeIn i bs

theorem hostChange_writeReg (s : State) (r : Reg) (v : Word) (hc : r ≠ .cmd) : hostChange s (writeReg s r v) := by
  rcases writeReg_cases s r v hc with h | h | ⟨i, h⟩
  · exact .inl h
  · exact .inr (.inl ⟨v, h⟩)
  · exact .inr (.inr (.inl ⟨i, v, h⟩))

/-- A buffer write that the address map accepts stays below IN's capacity, or is ignored. -/
theorem hostChange_writeBuffer (s : State) {w : Width} {off : Offset} {b : Buffer} {i : Nat} {bs : List Byte}
    (ht : target s.params w off = .ok (.buffer b i)) (hw : bs.length = widthBytes w) :
    hostChange s (writeBuffer s b i bs) := by
  cases b with
  | output => exact .inl rfl
  | input =>
    rcases (target_eq_ok s.params w off _).mp ht with ⟨-, r, hr, -⟩ | ⟨j, hj, -, -, hcap, -⟩ | ⟨j, hj, -⟩
    · cases hr
    · cases hj
      exact .inr (.inr (.inr ⟨i, bs, by omega, rfl⟩))
    · cases hj

/-- Every access but a write to CMD is a change of the host's side, answered. -/
theorem busAccess_hostChange (s : State) (a : Access) (h : ∀ v, a ≠ .writeWord 0 v) :
    ∃ t r, (busAccess s a).1 = t.respond r ∧ hostChange s t := by
  cases a with
  | read off w =>
    rw [busAccess]
    split
    · exact ⟨s, _, rfl, .inl rfl⟩
    · exact ⟨s, _, rfl, .inl rfl⟩
  | writeByte off b =>
    rw [busAccess]
    split
    · exact ⟨s, _, rfl, .inl rfl⟩
    · rename_i r ht
      exact absurd ((target_eq_ok _ _ _ _).mp ht) (by simp)
    · rename_i ht
      exact ⟨_, _, rfl, hostChange_writeBuffer s ht rfl⟩
  | writeWord off v =>
    rw [busAccess]
    split
    · exact ⟨s, _, rfl, .inl rfl⟩
    · rename_i r ht
      have hc : r ≠ .cmd := by
        rintro rfl
        exact h v (by rw [target_eq_cmd _ _ _ ht])
      exact ⟨_, _, rfl, hostChange_writeReg s r v hc⟩
    · rename_i ht
      exact ⟨_, _, rfl, hostChange_writeBuffer s ht rfl⟩

/-- A step whose access is no write to CMD takes the access from the queue, changes the host's side, and answers. -/
theorem step_hostChange {s t : State} {a : Access} {rest : List HostEvent} (h : s.pending = .access a :: rest)
    (ha : ∀ v, a ≠ .writeWord 0 v) (hs : step s = .next t) :
    ∃ u r, t = u.respond r ∧ hostChange (s.withPending rest) u := by
  rw [step_access s a rest h, stepAccess_other _ a ha] at hs
  cases hs
  exact busAccess_hostChange (s.withPending rest) a ha

end Sys2Proof.Machine
end

section
/-! PROOF. The invariant in its two halves, storage and report: each command ends in a legal report, and no event
takes the storage out of its bounds (10_state.md R23, R24, R26, R30, R31). -/

namespace Sys2Proof.Machine

/-- The half of the invariant that does not speak of CMD, STATUS and ERRINFO. -/
def State.storageLegal (s : State) : Prop :=
  s.params.wf ∧ (s.inBuf.wf ∧ s.inBuf.below s.params.inCap) ∧ (s.outBuf.wf ∧ s.outBuf.below s.params.outCap) ∧
  s.outLenLegal

theorem inv_iff (s : State) : s.Inv ↔ s.storageLegal ∧ s.statusLegal := by
  simp only [State.Inv, State.storageLegal, and_assoc]

/-! The report -/

/-- A successful command leaves a legal report, when CMD holds the word of the operation it ran. -/
theorem statusLegal_of_done {s : State} {i : Instr} (hc : selectCommand s.cmd = some i)
    (hs : s.status = statusDone i.opcode) (he : s.errInfo = 0) : s.statusLegal := by
  obtain ⟨hlow, hhigh, hcode, hop⟩ := statusDone_fields i.opcode
  have hbyte : s.cmd.extractLsb' 0 8 = i.opcode := by rw [eq_encode_of_selectCommand hc, encode_low_byte]
  simp [State.statusLegal, hs, he, hlow, hhigh, hcode, hop, hbyte, hc, doneFlag_statusDone, errFlag_statusDone,
    errCodes]

/-- A failed command leaves a legal report, when it was the low byte of CMD that failed. -/
theorem statusLegal_takeError {s : State} {op : Byte} (hc : s.cmd.extractLsb' 0 8 = op) (e : CmdError) :
    (s.takeError op e).statusLegal := by
  obtain ⟨hlow, hhigh, hcode, hop⟩ := statusFailed_fields op e.code.toByte
  have hcmd : (s.takeError op e).cmd = s.cmd := rfl
  simp [State.statusLegal, hlow, hhigh, hcode, hop, hcmd, hc, doneFlag_statusFailed, errFlag_statusFailed,
    toByte_mem_errCodes, toByte_ne_zero]

theorem exec_statusLegal {i : Instr} {s t : State} (hc : selectCommand s.cmd = some i) (h : exec i s = .next t) :
    t.statusLegal := by
  obtain ⟨hcmd, -⟩ := exec_hostSideKept h
  rcases exec_next_cases i s t h with ⟨w, -, rfl⟩ | ⟨e, -, rfl⟩
  · exact statusLegal_of_done (by rw [hcmd, hc]) (complete_status s _ w) (complete_errInfo s _ w)
  · exact statusLegal_takeError (by rw [eq_encode_of_selectCommand hc, encode_low_byte]) e

/-! The storage -/

/-- The input string an operation writes lies inside IN. -/
theorem commitWrites_inBuf_legal {i : Instr} {s : State} {w : Writes} (h : commandBody i s = .ok w)
    (hin : s.inBuf.wf ∧ s.inBuf.below s.params.inCap) :
    (s.commitWrites w).inBuf.wf ∧ (s.commitWrites w).inBuf.below s.params.inCap := by
  obtain ⟨hwf, hbelow⟩ := hin
  rw [commitWrites_inBuf]
  rcases commandBody_input i s w h with hn | ⟨-, hr, hlen⟩
  · rw [hn]
    exact ⟨hwf, hbelow⟩
  · rw [hr]
    refine ⟨Memory.write_wf _ _ _ hwf, Memory.write_below _ _ _ _ hbelow (.inl ?_)⟩
    rw [scramble_length, inputString_length]
    omega

/-- The output string an operation writes lies inside OUT. -/
theorem commitWrites_outBuf_legal {i : Instr} {s : State} {w : Writes} (h : commandBody i s = .ok w)
    (hout : s.outBuf.wf ∧ s.outBuf.below s.params.outCap) :
    (s.commitWrites w).outBuf.wf ∧ (s.commitWrites w).outBuf.below s.params.outCap := by
  obtain ⟨hwf, hbelow⟩ := hout
  rw [commitWrites_outBuf]
  rcases commandBody_output i s w h with hn | ⟨-, r, hr, hlen⟩
  · rw [hn]
    exact ⟨hwf, hbelow⟩
  · rw [hr]
    exact ⟨Memory.write_wf _ _ _ hwf, Memory.write_below _ _ _ _ hbelow (.inl (by omega))⟩

/-- OUT_LEN counts written bytes after an operation: those of its output string, or those it counted before. -/
theorem complete_outLenLegal {i : Instr} {s : State} {w : Writes} (h : commandBody i s = .ok w) (hp : s.params.wf)
    (hl : s.outLenLegal) : (s.complete i.opcode w).outLenLegal := by
  obtain ⟨-, -, -, hparams, -⟩ := complete_hostSideKept s i.opcode w
  rw [State.outLenLegal, hparams, complete_outLen, complete_outBuf]
  rcases commandBody_output i s w h with hn | ⟨-, r, hr, hlen⟩
  · rw [commitWrites_outLen, commitWrites_outBuf, hn]
    exact hl
  · rw [commitWrites_outLen_toNat hp hr hlen, commitWrites_outBuf, hr]
    refine ⟨hlen, fun a ha => ?_⟩
    rw [Memory.write_written, if_pos (by omega)]
    simp [ha]

theorem exec_storageLegal {i : Instr} {s t : State} (hs : s.storageLegal) (h : exec i s = .next t) :
    t.storageLegal := by
  rcases exec_next_cases i s t h with ⟨w, hw, rfl⟩ | ⟨e, -, rfl⟩
  · obtain ⟨hp, hin, hout, hl⟩ := hs
    obtain ⟨-, -, -, hparams, -⟩ := complete_hostSideKept s i.opcode w
    refine ⟨?_, ?_, ?_, complete_outLenLegal hw hp hl⟩
    · rw [hparams]; exact hp
    · rw [hparams, complete_inBuf]; exact commitWrites_inBuf_legal hw hin
    · rw [hparams, complete_outBuf]; exact commitWrites_outBuf_legal hw hout
  · exact hs

/-! The events -/

/-- Whatever word the host writes to CMD, the command it starts leaves a legal state. -/
theorem runWord_inv {w : Word} {s t : State} (hs : s.storageLegal) (hc : s.cmd = w) (h : runWord w s = .next t) :
    t.Inv := by
  subst hc
  unfold runWord at h
  rw [inv_iff]
  split at h
  · rename_i i hi
    exact ⟨exec_storageLegal hs h, exec_statusLegal hi h⟩
  · cases h
    exact ⟨hs, statusLegal_takeError rfl _⟩

/-- A change of the host's side keeps the invariant: only IN is in it, and IN takes bytes below its capacity. -/
theorem hostChange_inv {s t : State} (hs : s.Inv) (h : hostChange s t) : t.Inv := by
  rcases h with rfl | ⟨v, rfl⟩ | ⟨i, v, rfl⟩ | ⟨i, bs, hcap, rfl⟩
  · exact hs
  · exact hs
  · exact hs
  · obtain ⟨hp, ⟨hwf, hbelow⟩, hrest⟩ := hs
    exact ⟨hp, ⟨Memory.write_wf _ _ _ hwf, Memory.write_below _ _ _ _ hbelow (.inl hcap)⟩, hrest⟩

/-- The platform's reset leaves a legal state of the same build. -/
theorem applyReset_inv {s : State} (hp : s.params.wf) : s.applyReset.Inv := by
  refine ⟨hp, ⟨Memory.empty_wf, by simp⟩, ⟨Memory.empty_wf, by simp⟩, ⟨Nat.zero_le _, by simp⟩, ?_⟩
  have hreport : State.reset.statusLegal := by decide
  exact hreport

/-! What is left of the queue, and what the host was last answered, are no part of the invariant. -/

theorem withPending_inv {s : State} (rest : List HostEvent) (hs : s.Inv) : (s.withPending rest).Inv := hs

theorem respond_inv {s : State} (r : Response) (hs : s.Inv) : (s.respond r).Inv := hs

theorem step_inv {s t : State} (hs : s.Inv) (h : step s = .next t) : t.Inv := by
  match hq : s.pending with
  | [] =>
    rw [step_idle s hq] at h
    cases h
    exact hs
  | .reset :: rest =>
    rw [step_reset s rest hq] at h
    cases h
    exact applyReset_inv hs.1
  | .access a :: rest =>
    by_cases ha : ∃ v, a = .writeWord 0 v
    · obtain ⟨v, rfl⟩ := ha
      rw [step_access s _ rest hq, stepAccess_cmd] at h
      have hstorage : s.storageLegal := ((inv_iff s).mp hs).1
      exact runWord_inv (s := { s.withPending rest with cmd := v, response := .written }) hstorage rfl h
    · obtain ⟨u, r, rfl, hu⟩ := step_hostChange hq (fun v hv => ha ⟨v, hv⟩) h
      exact respond_inv r (hostChange_inv (withPending_inv rest hs) hu)

end Sys2Proof.Machine
end

section
/-! PROOF. The statements of the family 10_state.md, each from the lemmas above. -/

open Sys2Proof Sys2Proof.Machine

namespace Sys2Proof.Proofs

/-! The invariant and reset -/

/-- Settles O19: a case split over the first event of the queue (`step_inv`). -/
theorem everyStepKeepsInv : Obligations.EveryStepKeepsInv :=
  fun _ _ hs h => step_inv hs h

/-- Settles O18: the invariant reads neither the queue nor the counter of resets, so a reset of `State.reset` is as
good as `State.reset`. -/
theorem resetSatisfiesInv : Obligations.ResetSatisfiesInv :=
  applyReset_inv (s := State.reset) (by decide)

/-- Settles O17, register by register. -/
theorem resetStateValues : Obligations.ResetStateValues := by
  refine ⟨fun r => ?_, fun a => ⟨rfl, rfl⟩⟩
  cases r with
  | arg i => simp [readReg, State.getArg, State.reset]
  | res i => simp [readReg, State.getRes, State.reset]
  | _ => rfl

/-! What an operation changes -/

/-- Settles O8. -/
theorem noCommandWritesTheHostsRegisters : Obligations.NoCommandWritesTheHostsRegisters := by
  intro i s
  obtain ⟨t, ht⟩ := exec_answers_next i s
  exact ⟨t, ht, exec_hostSideKept ht⟩

/-- Settles O9: the two ends of the command cycle, and no body raises ILLEGAL_OP. -/
theorem statusAfterAnyOperation : Obligations.StatusAfterAnyOperation := by
  intro i s t h
  rcases exec_next_cases i s t h with ⟨w, -, rfl⟩ | ⟨e, he, rfl⟩
  · exact .inl ⟨complete_status s _ w, complete_errInfo s _ w⟩
  · exact .inr ⟨_, toByte_mem_of_ne_illegalOp e.code (commandBody_error_code i s e he), takeError_status s _ e⟩

/-- Settles O12: an operation's input string has IN_LEN bytes and is an in-place scrambler's. -/
theorem onlyInPlaceScramblersWriteIn : Obligations.OnlyInPlaceScramblersWriteIn := by
  intro i s t a h ha
  rcases exec_next_cases i s t h with ⟨w, hw, rfl⟩ | ⟨e, -, rfl⟩
  · rw [complete_inByte, commitWrites_inByte]
    rcases commandBody_input i s w hw with hn | ⟨hi, hr, -⟩
    · rw [hn]
    · have hlen : s.inLen.toNat ≤ a := by
        rcases ha with ⟨h1, h2⟩ | ha
        · exact absurd hi (by simp [h1, h2])
        · exact ha
      rw [hr]
      simp [scramble_length, hlen]
  · exact takeError_inByte s _ e a

/-- Settles O13: without an output string neither OUT nor OUT_LEN changes, and an output string has OUT_LEN bytes. -/
theorem onlyOutputOperationsWriteOut : Obligations.OnlyOutputOperationsWriteOut := by
  intro i s t hp h
  rcases exec_next_cases i s t h with ⟨w, hw, rfl⟩ | ⟨e, -, rfl⟩
  · simp only [complete_outLen, complete_outByte, complete_status, doneFlag_statusDone, commitWrites_outByte]
    rcases commandBody_output i s w hw with hn | ⟨hi, r, hr, hlen⟩
    · rw [commitWrites_outLen, hn]
      exact ⟨fun _ => ⟨rfl, fun _ => rfl⟩, fun _ _ => rfl⟩
    · rw [commitWrites_outLen_toNat hp hr hlen, hr]
      refine ⟨fun hno => ?_, fun a ha => by simp [List.getElem?_eq_none ha]⟩
      rcases hno with hno | hno
      · exact absurd hi hno
      · cases hno
  · exact ⟨fun _ => ⟨takeError_outLen s _ e, takeError_outByte s _ e⟩, fun a _ => takeError_outByte s _ e a⟩

/-- Settles O14: what column "writes" of R81 leaves out is what `namedResults` counts up to. -/
theorem unnamedResultsAreUnchanged : Obligations.UnnamedResultsAreUnchanged := by
  intro i s t k h hk
  rcases exec_next_cases i s t h with ⟨w, hw, rfl⟩ | ⟨e, -, rfl⟩
  · have hnamed : namedResults i ≤ k.val := by
      rcases hk with hk | hk
      · cases i <;> simp only [namedResults] at hk ⊢ <;> omega
      · simp [errFlag_statusDone] at hk
    rw [complete_getRes, commitWrites_getRes, lookup_results_eq_none hw k hnamed, Option.getD_none]
  · exact takeError_getRes s _ e k

/-! What a host access does -/

/-- Settles O5. -/
theorem stepRunsTheDecodedCommand : Obligations.StepRunsTheDecodedCommand := by
  intro s w i rest hq hd
  rw [step_access s _ rest hq, stepAccess_cmd, runWord_of_decodeWord hd]
  rfl

/-- Settles O55: one read lemma, at each register of 10_state.md R21. -/
theorem registerReadAnswersTheRegister : Obligations.RegisterReadAnswersTheRegister := by
  intro s rest off hq
  exact ⟨step_readReg hq .cmd, step_readReg hq .status, step_readReg hq .errInfo, step_readReg hq .inLen,
    step_readReg hq .outLen, step_readReg hq .inCap, step_readReg hq .outCap,
    fun k => step_readReg hq (.arg k), fun k => step_readReg hq (.res k)⟩

/-- Settles O57: one write lemma, at each register other than CMD. -/
theorem registerWriteStoresOrIsIgnored : Obligations.RegisterWriteStoresOrIsIgnored := by
  intro s rest r off v hr hq
  have hstep := step_writeReg hq r hr
  cases r with
  | cmd => trivial
  | _ => exact hstep nofun

/-- Settles O59: no change of the host's side touches the command side. -/
theorem onlyCommandsWriteTheReport : Obligations.OnlyCommandsWriteTheReport := by
  intro s t a rest hq ha h
  obtain ⟨u, r, rfl, hu⟩ := step_hostChange hq ha h
  rcases hu with rfl | ⟨v, rfl⟩ | ⟨i, v, rfl⟩ | ⟨i, bs, -, rfl⟩ <;> exact ⟨rfl, rfl, rfl, rfl, rfl, rfl⟩

end Sys2Proof.Proofs
end

section
/-! PROOF. One host access on the bus: the error response to an illegal one, the reads and writes of the buffer
windows, and what every event leaves of the queue and the capacities (20_memory.md R50 to R57). -/

namespace Sys2Proof.Machine

/-! Illegal accesses (20_memory.md R52, R53, R56) -/

theorem target_error_of_not_legal {p : Params} {w : Width} {off : Offset} (h : ¬legalAccess p w off.toNat) :
    ∃ f, target p w off = .error f := by
  cases ht : target p w off with
  | error f => exact ⟨f, rfl⟩
  | ok t => exact absurd ((target_isOk_iff p w off).mp ⟨t, ht⟩) h

/-- An illegal access is answered with a bus error, touches no other field, and starts no command. -/
theorem busAccess_of_not_legal {s : State} {a : Access} (h : ¬legalAccess s.params (accessWidth a) (accessOffset a)) :
    ∃ f, busAccess s a = (s.respond (.busError f), none) := by
  cases a with
  | read off w =>
    obtain ⟨f, hf⟩ := target_error_of_not_legal (w := w) h
    exact ⟨f, by rw [busAccess, hf]⟩
  | writeByte off b =>
    obtain ⟨f, hf⟩ := target_error_of_not_legal (w := .one) h
    exact ⟨f, by rw [busAccess, hf]⟩
  | writeWord off v =>
    obtain ⟨f, hf⟩ := target_error_of_not_legal (w := .four) h
    exact ⟨f, by rw [busAccess, hf]⟩

/-! The buffer windows (20_memory.md R51, R53) -/

/-- The offset of a buffer's index 0. -/
def bufferStart : Buffer → Nat
  | .input => 0x10000
  | .output => 0x20000

theorem legalAccess_buffer {p : Params} {w : Width} (b : Buffer) {i : Nat} (hi : i < 0x10000)
    (hcap : i + widthBytes w ≤ p.cap b) (halign : w = .four → i % 4 = 0) : legalAccess p w (bufferStart b + i) := by
  cases b with
  | input => exact .inr (.inl ⟨i, rfl, hi, hcap, halign⟩)
  | output => exact .inr (.inr ⟨i, rfl, hi, hcap, halign⟩)

/-- The three windows are disjoint: a legal access at a buffer's start plus an index reaches that index. -/
theorem target_buffer {p : Params} {w : Width} {off : Offset} (h : legalAccess p w off.toNat) (b : Buffer) {i : Nat}
    (ho : off.toNat = bufferStart b + i) (hi : i < 0x10000) : target p w off = .ok (.buffer b i) := by
  obtain ⟨t, ht⟩ := (target_isOk_iff p w off).mpr h
  rw [ht]
  rcases (target_eq_ok p w off t).mp ht with ⟨-, r, -, hr⟩ | ⟨j, rfl, hj, hlt, -⟩ | ⟨j, rfl, hj, hlt, -⟩
  · have := regOffset_lt r
    cases b <;> simp only [bufferStart] at ho <;> omega
  · cases b with
    | input => rw [show j = i by simp only [bufferStart] at ho; omega]
    | output => simp only [bufferStart] at ho; omega
  · cases b with
    | input => simp only [bufferStart] at ho; omega
    | output => rw [show j = i by simp only [bufferStart] at ho; omega]

/-! Buffer reads (20_memory.md R54) -/

/-- Four bytes as one number, the first the most significant (00_scope.md R9). -/
theorem be32_eq_ofNat (a b c d : Byte) :
    be32 a b c d = BitVec.ofNat 32 (((a.toNat * 256 + b.toNat) * 256 + c.toNat) * 256 + d.toNat) := by
  have := a.isLt
  have := b.isLt
  have := c.isLt
  have := d.isLt
  have hsum : ((a.toNat * 256 + b.toNat) * 256 + c.toNat) * 256 + d.toNat =
      a.toNat * 2 ^ 24 ||| b.toNat * 2 ^ 16 ||| c.toNat * 2 ^ 8 ||| d.toNat := by
    rw [Nat.or_assoc, Nat.or_assoc, or_eq_add c.toNat d.toNat 8 (by omega), or_eq_add b.toNat _ 16 (by omega),
      or_eq_add a.toNat _ 24 (by omega)]
    omega
  apply BitVec.eq_of_toNat_eq
  rw [hsum, BitVec.toNat_ofNat, Nat.mod_eq_of_lt (by rw [← hsum]; omega)]
  simp only [be32, BitVec.toNat_or, BitVec.toNat_shiftLeft, BitVec.toNat_setWidth, Nat.shiftLeft_eq]
  congr 3 <;> omega

@[simp] theorem bufferByte_withPending (s : State) (rest : List HostEvent) (b : Buffer) (i : Nat) :
    bufferByte (s.withPending rest) b i = bufferByte s b i := by
  cases b <;> rfl

/-- A legal buffer read answers from the buffer and changes nothing else. -/
theorem step_readBuffer {s : State} {rest : List HostEvent} {off : Offset} {w : Width}
    (h : s.pending = .access (.read off w) :: rest) (hl : legalAccess s.params w off.toNat) (b : Buffer) {i : Nat}
    (ho : off.toNat = bufferStart b + i) (hi : i < 0x10000) :
    step s = .next { s with pending := rest, response := readTarget s w (.buffer b i) } := by
  have hread : readTarget (s.withPending rest) w (.buffer b i) = readTarget s w (.buffer b i) := by
    cases w <;> simp only [readTarget, bufferByte_withPending]
  have ht : target (s.withPending rest).params w off = .ok (.buffer b i) := target_buffer hl b ho hi
  rw [step_access s _ rest h, stepAccess, busAccess, ht, ← hread]
  rfl

/-- Both widths of a read inside the capacity of a buffer. -/
theorem step_readBuffer_answers {s : State} {rest : List HostEvent} {off : Offset} {w : Width}
    (h : s.pending = .access (.read off w) :: rest) (b : Buffer) {i : Nat} (ho : off.toNat = bufferStart b + i)
    (hi : i < 0x10000) :
    (w = .one → i < s.params.cap b →
      step s = .next { s with pending := rest, response := .byte (bufferByte s b i) }) ∧
    (w = .four → i % 4 = 0 → i + 3 < s.params.cap b →
      step s = .next { s with pending := rest, response := .word (BitVec.ofNat 32
        ((((bufferByte s b i).toNat * 256 + (bufferByte s b (i + 1)).toNat) * 256 +
          (bufferByte s b (i + 2)).toNat) * 256 + (bufferByte s b (i + 3)).toNat)) }) := by
  constructor
  · rintro rfl hcap
    exact step_readBuffer h (ho ▸ legalAccess_buffer b hi hcap nofun) b ho hi
  · rintro rfl halign hcap
    rw [← be32_eq_ofNat]
    exact step_readBuffer h (ho ▸ legalAccess_buffer b hi hcap fun _ => halign) b ho hi

/-! Buffer writes (20_memory.md R54, R55) -/

/-- A legal write in a buffer window is the buffer write alone, and starts no command. -/
theorem step_writeBuffer {s : State} {rest : List HostEvent} {a : Access} {bs : List Byte}
    (h : s.pending = .access a :: rest) (hl : legalAccess s.params (accessWidth a) (accessOffset a))
    (ha : (∃ off b, a = .writeByte off b ∧ bs = [b]) ∨ (∃ off v, a = .writeWord off v ∧ bs = bytes32 v))
    (b : Buffer) {i : Nat} (ho : accessOffset a = bufferStart b + i) (hi : i < 0x10000) :
    step s = .next ((writeBuffer (s.withPending rest) b i bs).respond .written) := by
  rw [step_access s a rest h, stepAccess]
  rcases ha with ⟨off, x, rfl, rfl⟩ | ⟨off, v, rfl, rfl⟩
  · have ht : target (s.withPending rest).params .one off = .ok (.buffer b i) := target_buffer hl b ho hi
    rw [busAccess, ht]
  · have ht : target (s.withPending rest).params .four off = .ok (.buffer b i) := target_buffer hl b ho hi
    rw [busAccess, ht]

/-! What every event leaves -/

theorem hostChange_keeps {s t : State} (h : hostChange s t) : t.pending = s.pending ∧ t.params = s.params := by
  rcases h with rfl | ⟨v, rfl⟩ | ⟨i, v, rfl⟩ | ⟨i, bs, -, rfl⟩ <;> exact ⟨rfl, rfl⟩

/-- No command word stops the machine, legal or not (60_exceptions.md R270). -/
theorem runWord_answers_next (w : Word) (s : State) :
    ∃ t, runWord w s = .next t ∧ t.pending = s.pending ∧ t.params = s.params := by
  unfold runWord
  split
  · rename_i i _
    obtain ⟨t, ht⟩ := exec_answers_next i s
    obtain ⟨-, -, -, hparams, -, hpending, -⟩ := exec_hostSideKept ht
    exact ⟨t, ht, hpending, hparams⟩
  · exact ⟨_, rfl, rfl, rfl⟩

/-- No access stops the machine: a write to CMD runs a word, and any other changes the host's side at most. -/
theorem stepAccess_answers_next (a : Access) (s : State) :
    ∃ t, stepAccess a s = .next t ∧ t.pending = s.pending ∧ t.params = s.params := by
  by_cases ha : ∃ v, a = .writeWord 0 v
  · obtain ⟨v, rfl⟩ := ha
    rw [stepAccess_cmd]
    exact runWord_answers_next v { s with cmd := v, response := .written }
  · have hother : ∀ v, a ≠ .writeWord 0 v := fun v hv => ha ⟨v, hv⟩
    obtain ⟨u, r, hu, hchange⟩ := busAccess_hostChange s a hother
    rw [stepAccess_other s a hother, hu]
    obtain ⟨hpending, hparams⟩ := hostChange_keeps hchange
    exact ⟨_, rfl, hpending, hparams⟩

end Sys2Proof.Machine
end

section
/-! PROOF. The statements of the family 20_memory.md, each from the lemmas above. -/

open Sys2Proof Sys2Proof.Machine

namespace Sys2Proof.Proofs

/-- Settles O53: an address from BASE on is BASE plus a number, and offsets are the numbers inside the window. -/
theorem windowIsBasePlusOffset : Obligations.WindowIsBasePlusOffset := by
  intro addr off
  rw [windowAddress]
  by_cases h : Config.base ≤ addr
  · obtain ⟨n, hn⟩ := Nat.exists_eq_add_of_le h
    rw [hn, windowOffset_base_add, offsetInWindow_eq_some, Nat.add_left_cancel_iff, eq_comm]
  · rw [windowOffset, if_neg (by omega)]
    exact ⟨nofun, fun ha => by omega⟩

/-- Settles O7: a case split over the first event of the queue. -/
theorem everyStepAnswersNext : Obligations.EveryStepAnswersNext := by
  intro s
  match hq : s.pending with
  | [] => exact ⟨s, step_idle s hq, hq, rfl, fun _ => rfl⟩
  | .reset :: rest => exact ⟨_, step_reset s rest hq, rfl, rfl, nofun⟩
  | .access a :: rest =>
    obtain ⟨t, ht, hpending, hparams⟩ := stepAccess_answers_next a (s.withPending rest)
    exact ⟨t, (step_access s a rest hq).trans ht, hpending, hparams, nofun⟩

/-- Settles O54: the address map answers an error to what is not legal. -/
theorem illegalAccessIsABusError : Obligations.IllegalAccessIsABusError := by
  intro s a rest hq hl
  obtain ⟨f, hf⟩ := busAccess_of_not_legal (s := s.withPending rest) hl
  refine ⟨f, ?_, rfl⟩
  rw [step_access s a rest hq, stepAccess, hf]
  rfl

/-- Settles O56: one lemma for both buffers. -/
theorem bufferReadIsBigEndian : Obligations.BufferReadIsBigEndian := by
  intro s rest off w i start cap byte hbuf hq ho hi
  rcases hbuf with ⟨rfl, rfl, rfl⟩ | ⟨rfl, rfl, rfl⟩
  · exact step_readBuffer_answers hq .input ho hi
  · exact step_readBuffer_answers hq .output ho hi

/-- Settles O58: IN is written by `storeIn`, whose bytes `inByte_storeIn` gives; OUT is left alone. -/
theorem bufferWriteStoresInOnly : Obligations.BufferWriteStoresInOnly := by
  intro s rest a i bs hq hl ha hi
  constructor
  · intro ho
    refine ⟨_, step_writeBuffer hq hl ha .input ho hi, fun k => ?_, rfl⟩
    exact inByte_storeIn (s.withPending rest) i bs k
  · intro ho
    exact step_writeBuffer hq hl ha .output ho hi

end Sys2Proof.Proofs
end

section
/-! PROOF. The command words: the table's words are the encoder's, and the fields of 30_encoding.md R80 and R82 pick
out the same words; what a command that fails reports (30_encoding.md R81, R83, R88, R90). -/

namespace Sys2Proof.Machine

/-! Command words (30_encoding.md R80 to R83) -/

theorem selectCommand_eq_some {w : Word} {i : Instr} : selectCommand w = some i ↔ decodeWord w = .ok i := by
  unfold selectCommand
  cases decodeWord w with
  | ok j => simp
  | error e => simp

theorem decodeWord_encode (i : Instr) : decodeWord (encode i) = .ok i := by
  cases i <;> rfl

theorem decodeWord_eq_ok_iff {w : Word} {i : Instr} : decodeWord w = .ok i ↔ w = encode i := by
  constructor
  · intro h
    exact eq_encode_of_selectCommand (selectCommand_eq_some.mpr h)
  · rintro rfl
    exact decodeWord_encode i

/-- A word of no operation selects nothing. -/
theorem selectCommand_eq_none {w : Word} (h : ∀ i, w ≠ encode i) : selectCommand w = none := by
  cases hs : selectCommand w with
  | none => rfl
  | some i => exact absurd (eq_encode_of_selectCommand hs) (h i)

/-- A word is already numbered as the opcode table numbers it. -/
theorem tableCommandWord_toNat (w : Word) : tableCommandWord 32 w.toNat = some w := by
  rw [tableCommandWord, Nat.mod_eq_of_lt w.isLt, if_pos w.isLt, BitVec.ofNat_toNat, BitVec.setWidth_eq]

theorem commandWordWf_encode (i : Instr) : commandWordWf (encode i) = true := by
  cases i <;> rfl

/-- A word with RSV zero is its FAM and FN fields. -/
theorem eq_ofNat_fields {w : Word} (h : w.extractLsb' 8 24 = 0) :
    w = BitVec.ofNat 32 (16 * (w.extractLsb' 4 4).toNat + (w.extractLsb' 0 4).toNat) := by
  have := w.isLt
  have hrsv := congrArg BitVec.toNat h
  apply BitVec.eq_of_toNat_eq
  simp only [BitVec.extractLsb'_toNat, Nat.shiftRight_eq_div_pow, BitVec.toNat_ofNat, BitVec.ofNat_eq_ofNat] at hrsv ⊢
  omega

/-- Every function of every family of R82 is a row of R81. -/
theorem selectCommand_of_fields : ∀ fam < 16, ∀ fn < [0, 4, 2, 4, 5, 10, 4].getD fam 0,
    (selectCommand (BitVec.ofNat 32 (16 * fam + fn))).isSome = true := by
  decide

theorem decodeWord_of_commandWordWf {w : Word} (h : commandWordWf w = true) : ∃ i, decodeWord w = .ok i := by
  simp only [commandWordWf, Bool.and_eq_true, beq_iff_eq, decide_eq_true_eq] at h
  obtain ⟨hrsv, hfn⟩ := h
  have hsome := selectCommand_of_fields _ (w.extractLsb' 4 4).isLt _ hfn
  rw [← eq_ofNat_fields hrsv] at hsome
  obtain ⟨i, hi⟩ := Option.isSome_iff_exists.mp hsome
  exact ⟨i, selectCommand_eq_some.mp hi⟩

/-! What a failed command reports (30_encoding.md R88, R90) -/

theorem lowByte_setWidth (w : Word) : (w.extractLsb' 0 8).setWidth 32 = w &&& 0xFF := by
  apply BitVec.eq_of_toNat_eq
  have hmask : w.toNat &&& 255 = w.toNat % 2 ^ 8 := Nat.and_two_pow_sub_one_eq_mod w.toNat 8
  simp only [BitVec.toNat_setWidth, BitVec.extractLsb'_toNat, BitVec.toNat_and, BitVec.ofNat_eq_ofNat,
    BitVec.toNat_ofNat, Nat.shiftRight_zero, Nat.reducePow, Nat.reduceMod, hmask]
  omega

/-- STATUS after a failure, the opcode apart from the code and ERR. -/
theorem statusFailed_eq (op code : Byte) :
    statusFailed op code = (op.setWidth 32 <<< 16) ||| ((code.setWidth 32 <<< 8) ||| 0x00000002#32) :=
  BitVec.or_assoc _ _ _

theorem statusFailed_illegalOp (w : Word) :
    statusFailed (w.extractLsb' 0 8) ErrCode.illegalOp.toByte = ((w &&& 0xFF) <<< 16) ||| 0x00000102 := by
  rw [statusFailed_eq, lowByte_setWidth]
  rfl

theorem statusFailed_inLenInvalid (i : Instr) :
    statusFailed i.opcode ErrCode.inLenInvalid.toByte = (encode i <<< 16) ||| 0x00000202 :=
  statusFailed_eq i.opcode _

/-- The operations that read IN begin with the check of IN_LEN. -/
theorem commandBody_eq_requireInput_bind {i : Instr} (s : State)
    (h : i ∈ [Instr.crcCalc, .crcVerify, .crcAppend, .crcVerifyApp, .parCalc, .parVerify, .cltuEnc, .cltuDec,
      .scrRand, .scrRandIp, .scrDerand, .scrDerandIp, .fhParse, .fhScid, .fhVcid, .fhCount, .fhValid, .fhIsCmd,
      .fhIsTm, .tmBuild, .tcBuild]) : ∃ f, commandBody i s = requireInput s >>= f := by
  cases i with
  | cltuSize | cltuBlocks | scrSeq | fhBuild | clcwEnc | clcwEncFull | clcwDec | clcwNominal => simp at h
  | _ => exact ⟨_, rfl⟩

end Sys2Proof.Machine
end

section
/-! PROOF. MOVEOUT (30_encoding.md R95): a run of the accesses of host-script statements, and its copy loop. -/

namespace Sys2Proof.Machine

/-! Runs -/

theorem run_succ_of_step {M : Host.Core} {s t : M.State} (h : M.step s = .next t) (n : Nat) :
    M.run (n + 1) s = M.run n t := by
  rw [Host.Core.run, h]

/-- A run goes on from where its first part ends. -/
theorem run_add_of_run {M : Host.Core} {m : Nat} {s t : M.State} (h : M.run m s = .next t) (n : Nat) :
    M.run (m + n) s = M.run n t := by
  induction m generalizing s with
  | zero =>
    cases h
    rw [Nat.zero_add]
  | succ m ih =>
    rw [Host.Core.run] at h
    split at h
    · rename_i v hv
      rw [Nat.succ_add, run_succ_of_step hv, ih h]
    · cases h
    · cases h

theorem runsTo_one {s t : State} (h : step s = .next t) : runsTo 1 s t :=
  run_succ_of_step (M := Sys2Proof.core) h 0

theorem runsTo_trans {m n : Nat} {s t u : State} (h : runsTo m s t) (ht : runsTo n t u) : runsTo (m + n) s u :=
  (run_add_of_run h n).trans ht

/-! The events of statements -/

/-- What `State.enqueue` puts into the queue for some statements. -/
def stmtEvents (l : List Stmt) : List HostEvent := (l.filterMap stmtAccess).map .access

theorem enqueue_eq_withPending (s : State) (l : List Stmt) : s.enqueue l = s.withPending (s.pending ++ stmtEvents l) :=
  rfl

theorem stmtEvents_cons {st : Stmt} {a : Access} (h : stmtAccess st = some a) (l : List Stmt) :
    stmtEvents (st :: l) = .access a :: stmtEvents l := by
  simp [stmtEvents, h]

/-- The state with another content of IN, another last answer and another queue, and all else as it is: what reads
and the writes of IN come to. -/
def State.withIn (s : State) (m : Memory) (r : Response) (rest : List HostEvent) : State :=
  { s with inBuf := m, response := r, pending := rest }

/-- `RD` answers the register and changes nothing else. -/
theorem step_rd {s : State} {r : Reg} {l : List Stmt} (h : s.pending = stmtEvents (.rd r :: l)) :
    step s = .next (s.withIn s.inBuf (.word (readReg s r)) (stmtEvents l)) :=
  step_readReg h r (regOffset_toNat r)

/-- `WR` of a register other than CMD is the register write alone. -/
theorem step_wr {s : State} {r : Reg} {v : Word} {l : List Stmt} (h : s.pending = stmtEvents (.wr r v :: l))
    (hc : r ≠ .cmd) : step s = .next ((writeReg (s.withPending (stmtEvents l)) r v).respond .written) :=
  step_writeReg h r (regOffset_toNat r) hc

/-- `RDB OUT[i]` answers the byte and changes nothing else. -/
theorem step_rdb_output {s : State} {i : Nat} {l : List Stmt} (h : s.pending = stmtEvents (.rdb .output i :: l))
    (hp : s.params.wf) (hi : i < s.params.outCap) :
    step s = .next (s.withIn s.inBuf (.byte (s.outByte i)) (stmtEvents l)) := by
  obtain ⟨-, -, hcap⟩ := hp
  obtain ⟨off, hoff, hn⟩ := offsetInWindow_of_lt (0x20000 + i) (by omega)
  have hst : stmtAccess (.rdb .output i) = some (.read off .one) := by
    simp [stmtAccess, bufferOffset, outOffset, hoff]
  rw [stmtEvents_cons hst] at h
  exact (step_readBuffer_answers h .output hn (by omega)).1 rfl hi

/-- `WRB IN[i]` stores the byte and changes nothing else. -/
theorem step_wrb {s : State} {i : Nat} {b : Byte} {l : List Stmt} (h : s.pending = stmtEvents (.wrb i b :: l))
    (hp : s.params.wf) (hi : i < s.params.inCap) :
    step s = .next (s.withIn (s.inBuf.write i [b]) .written (stmtEvents l)) := by
  obtain ⟨⟨-, hcap⟩, -⟩ := hp
  obtain ⟨off, hoff, hn⟩ := offsetInWindow_of_lt (0x10000 + i) (by omega)
  have hst : stmtAccess (.wrb i b) = some (.writeByte off b) := by
    simp [stmtAccess, inOffset, hoff]
  rw [stmtEvents_cons hst] at h
  have hl : legalAccess s.params .one off.toNat := hn ▸ legalAccess_buffer .input (by omega) hi nofun
  exact step_writeBuffer h hl (.inl ⟨off, b, rfl, rfl⟩) .input hn (by omega)

/-! The copy loop -/

theorem write_byte_written (m : Memory) (i : Nat) (b : Byte) (a : Nat) :
    (m.write i [b]).written a = if a = i then some b else m.written a := by
  rw [Memory.write_written, List.length_singleton]
  by_cases ha : a = i
  · simp [ha]
  · rw [if_neg (by omega), if_neg ha]

/-- One turn of the loop: the byte is read from OUT and stored in IN. -/
theorem copyByte_runsTo {s : State} {i : Nat} {b : Byte} {l : List Stmt}
    (h : s.pending = stmtEvents (.rdb .output i :: .wrb i b :: l)) (hp : s.params.wf) (hin : i < s.params.inCap)
    (hout : i < s.params.outCap) :
    runsTo 2 s (s.withIn (s.inBuf.write i [b]) .written (stmtEvents l)) := by
  have hread := step_rdb_output h hp hout
  have hwrite := step_wrb (s := s.withIn s.inBuf (.byte (s.outByte i)) (stmtEvents (.wrb i b :: l))) rfl hp hin
  exact runsTo_trans (runsTo_one hread) (runsTo_one hwrite)

/-- The loop of MOVEOUT over the `n` indices from `i`: IN takes there the bytes of OUT at `s`, where the script was
expanded, and nothing else of the block changes. -/
theorem copyStmts_runsTo (s : State) {l : List Stmt} {i n : Nat} {u : State}
    (h : u.pending = stmtEvents (copyStmts s i n ++ l)) (hp : u.params.wf) (hin : i + n ≤ u.params.inCap)
    (hout : i + n ≤ u.params.outCap) :
    ∃ m r, runsTo (copyStmts s i n).length u (u.withIn m r (stmtEvents l)) ∧
      ∀ a, m.written a = if i ≤ a ∧ a < i + n then some (s.outByte a) else u.inBuf.written a := by
  induction n generalizing i u with
  | zero =>
    have hq : u.withIn u.inBuf u.response (stmtEvents l) = u := by
      rw [show stmtEvents l = u.pending from h.symm]
      rfl
    exact ⟨u.inBuf, u.response, by rw [hq]; rfl, fun a => by rw [if_neg (by omega)]⟩
  | succ n ih =>
    have hturn : runsTo 2 u _ := copyByte_runsTo h hp (by omega) (by omega)
    obtain ⟨m, r, hrest, hbytes⟩ := ih (i := i + 1)
      (u := u.withIn (u.inBuf.write i [s.outByte i]) .written (stmtEvents (copyStmts s (i + 1) n ++ l)))
      rfl hp (by rw [Nat.add_right_comm]; exact hin) (by rw [Nat.add_right_comm]; exact hout)
    refine ⟨m, r, ?_, fun a => ?_⟩
    · rw [copyStmts, List.length_cons, List.length_cons, Nat.add_assoc, Nat.add_comm]
      exact runsTo_trans hturn hrest
    · rw [hbytes a, State.withIn, write_byte_written]
      by_cases ha : a = i
      · simp [ha]
      · rw [if_neg ha]
        congr 1
        simp only [eq_iff_iff]
        omega

/-- MOVEOUT as a run: the read of OUT_LEN, the loop, and the write of IN_LEN. -/
theorem moveOut_runsTo {s : State} (hp : s.params.wf) (hq : s.pending = []) (hin : s.outLen.toNat ≤ s.params.inCap)
    (hout : s.outLen.toNat ≤ s.params.outCap) :
    ∃ m, runsTo (expand s .moveOut).length (s.enqueue (expand s .moveOut))
        { s.withIn m .written [] with inLen := s.outLen } ∧
      ∀ a < s.outLen.toNat, m.written a = some (s.outByte a) := by
  have hqueue : (s.enqueue (expand s .moveOut)).pending = stmtEvents (expand s .moveOut) := by
    rw [enqueue_eq_withPending, hq]
    rfl
  have hlen := step_rd hqueue
  obtain ⟨m, r, hloop, hbytes⟩ := copyStmts_runsTo s (i := 0) (n := s.outLen.toNat) (l := [.wr .inLen s.outLen])
    (u := s.withIn s.inBuf (.word s.outLen) (stmtEvents (copyStmts s 0 s.outLen.toNat ++ [.wr .inLen s.outLen])))
    rfl hp (by rw [Nat.zero_add]; exact hin) (by rw [Nat.zero_add]; exact hout)
  have hwrite := step_wr (s := s.withIn m r (stmtEvents [.wr .inLen s.outLen])) rfl nofun
  refine ⟨m, ?_, fun a ha => (hbytes a).trans (if_pos (by omega))⟩
  rw [expand, List.length_cons, List.length_append, Nat.add_comm]
  exact runsTo_trans (runsTo_one hlen) (runsTo_trans hloop (runsTo_one hwrite))

end Sys2Proof.Machine
end

section
/-! PROOF. The statements of the family 30_encoding.md, each from the lemmas above. -/

open Sys2Proof Sys2Proof.Machine

namespace Sys2Proof.Proofs

/-! Encoding -/

/-- Settles O1: an operation's word is a row of the opcode table. -/
theorem encodedCommandDecodesToItself : Obligations.EncodedCommandDecodesToItself := by
  intro i _
  refine ⟨decodeWord_encode i, ?_⟩
  rw [decodeTableWord, tableCommandWord_toNat]
  exact selectCommand_eq_some.mpr (decodeWord_encode i)

/-- Settles O2. -/
theorem decoderAcceptsOnlyTheTableWords : Obligations.DecoderAcceptsOnlyTheTableWords :=
  fun _ _ => decodeWord_eq_ok_iff

/-- Settles O3: RSV zero leaves FAM and FN, and the legal pairs of these are the rows of the opcode table. -/
theorem legalFieldsAreTheDecodedWords : Obligations.LegalFieldsAreTheDecodedWords := by
  intro w
  constructor
  · exact decodeWord_of_commandWordWf
  · rintro ⟨i, hi⟩
    rw [decodeWord_eq_ok_iff.mp hi]
    exact commandWordWf_encode i

/-- Settles O4: each word is the encoder's for its operation. -/
theorem sampleWordsDecode : Obligations.SampleWordsDecode :=
  ⟨decodeWord_encode .crcVerifyApp, decodeWord_encode .parVerify, decodeWord_encode .cltuDec,
    decodeWord_encode .scrSeq, decodeWord_encode .tcBuild, decodeWord_encode .clcwEncFull⟩

/-! The command cycle -/

/-- Settles O6. -/
theorem illegalCommandFailsWithTheWord : Obligations.IllegalCommandFailsWithTheWord := by
  intro s w rest hq hw
  rw [step_access s _ rest hq, stepAccess_cmd, runWord, selectCommand_eq_none hw, ← statusFailed_illegalOp]
  rfl

/-- Settles O10: a command that committed its writes has ERR clear. -/
theorem failedCommandChangesOnlyItsReport : Obligations.FailedCommandChangesOnlyItsReport := by
  intro i s t h herr
  rcases exec_next_cases i s t h with ⟨w, -, rfl⟩ | ⟨e, -, rfl⟩
  · rw [complete_status, errFlag_statusDone] at herr
    cases herr
  · rfl

/-- Settles O11: the check of IN_LEN is the first of each of these operations, and raises. -/
theorem inputLengthIsCheckedFirst : Obligations.InputLengthIsCheckedFirst := by
  intro i s hi hlen
  obtain ⟨f, hf⟩ := commandBody_eq_requireInput_bind s hi
  rw [requireInput, require_le_bind, if_pos hlen] at hf
  exact failsWith_of_body hf (statusFailed_inLenInvalid i)

/-- Settles O15: both states give the operation's body the same outcome, so both commit the same writes or both
report the same error. -/
theorem outcomeDependsOnlyOnTheOperands : Obligations.OutcomeDependsOnlyOnTheOperands := by
  intro i s t hp hl ha hb
  have hbody := commandBody_congr i s t hp hl ha hb
  simp only [exec_eq_runCommand, ← hbody]
  cases commandBody i s with
  | error e => exact ⟨_, _, rfl, rfl, rfl, rfl, fun _ => .inr ⟨rfl, rfl⟩, hb, .inr ⟨rfl, rfl, fun _ => ⟨rfl, rfl⟩⟩⟩
  | ok w =>
    refine ⟨_, _, rfl, rfl, rfl, rfl, fun k => ?_, fun a halt => ?_, ?_⟩
    · simp only [complete_getRes, commitWrites_getRes]
      cases w.results.lookup k with
      | some v => exact .inl rfl
      | none => exact .inr ⟨rfl, rfl⟩
    · simp only [complete_inByte, commitWrites_inByte, hb a halt]
    · simp only [complete_outLen, complete_outByte, commitWrites_outLen, commitWrites_outByte]
      cases w.output with
      | none => exact .inr ⟨rfl, rfl, fun _ => ⟨rfl, rfl⟩⟩
      | some r =>
        refine .inl ⟨rfl, fun a => ?_⟩
        dsimp only
        cases r[a]? with
        | some b => exact .inl rfl
        | none => exact .inr ⟨rfl, rfl⟩

/-! MOVEOUT -/

/-- Settles O60: the run of `moveOut_runsTo` ends with IN_LEN = OUT_LEN and OUT's bytes in IN. -/
theorem moveOutCopiesOutToIn : Obligations.MoveOutCopiesOutToIn := by
  intro s hinv hq hin
  obtain ⟨hp, -, -, ⟨hout, -⟩, -⟩ := hinv
  obtain ⟨m, hrun, hbytes⟩ := moveOut_runsTo hp hq hin hout
  refine ⟨_, hrun, List.map_congr_left fun a ha => ?_, rfl, rfl, rfl, rfl, rfl, rfl, rfl, rfl, rfl, rfl⟩
  rw [State.inByte, State.withIn, hbytes a (List.mem_range.mp ha), Option.getD_some]

end Sys2Proof.Proofs
end

section
/-! PROOF. The CRC register (41_crc.md R110): each of its bits can be undone, so the register a byte string leaves is
zero exactly when the string ends in the CRC of the bytes before. And a body's checks, one at a time. -/

namespace Sys2Proof.Machine

/-! Bits: the shift out is undone, because CRC_POLY is odd -/

theorem crcBit_getLsbD_zero (c : Half) : (crcBit c).getLsbD 0 = c.getLsbD 15 := by
  unfold crcBit
  split
  · next h => simp [h, crcPoly]
  · next h => simpa using h

/-- Bit 0 of the new register says which bit was shifted out, and so whether the polynomial was added. -/
theorem crcBit_injective : Function.Injective crcBit := by
  intro a b h
  have h15 : a.getLsbD 15 = b.getLsbD 15 := by
    rw [← crcBit_getLsbD_zero, ← crcBit_getLsbD_zero, h]
  have hshift : a <<< 1 = b <<< 1 := by
    unfold crcBit at h
    rw [h15] at h
    split at h
    · exact (BitVec.xor_left_inj crcPoly).mp h
    · exact h
  apply BitVec.eq_of_getLsbD_eq
  intro i hi
  rcases Nat.lt_or_ge i 15 with hlow | htop
  · have hbit := congrArg (fun c : Half => c.getLsbD (i + 1)) hshift
    simpa only [BitVec.getLsbD_shiftLeft, show i + 1 < 16 by omega, decide_true, Bool.true_and, Nat.add_sub_cancel,
      show ¬i + 1 < 1 by omega, decide_false, Bool.not_false] using hbit
  · rwa [show i = 15 by omega]

theorem crcBits_injective (n : Nat) : Function.Injective (crcBits n) := by
  induction n with
  | zero => exact fun _ _ h => h
  | succ n ih => exact fun _ _ h => crcBit_injective (ih h)

theorem crcBit_of_lt {c : Half} (h : c.toNat < 2 ^ 15) : crcBit c = c <<< 1 := by
  have htop : c.getLsbD 15 = false := Nat.testBit_lt_two_pow h
  rw [crcBit, if_neg (ne_true_of_eq_false htop)]

/-- While only zeros are shifted out, the bits only shift. -/
theorem crcBits_eq_shiftLeft (n : Nat) (c : Half) (h : c.toNat * 2 ^ n < 2 ^ 16) : crcBits n c = c <<< n := by
  induction n generalizing c with
  | zero => simp [crcBits]
  | succ n ih =>
    rw [pow_succ, ← mul_assoc] at h
    have hle : c.toNat ≤ c.toNat * 2 ^ n := Nat.le_mul_of_pos_right _ (Nat.two_pow_pos n)
    have hdouble : (c <<< 1).toNat = c.toNat * 2 := by
      rw [BitVec.toNat_shiftLeft, Nat.shiftLeft_eq]
      omega
    rw [crcBits, crcBit_of_lt (by omega), ih (c <<< 1) (by rwa [hdouble, mul_right_comm]), Nat.add_comm,
      BitVec.shiftLeft_add]

theorem crcBits_eq_shiftLeft_byte (b : Byte) : crcBits 8 (b.setWidth 16) = b.setWidth 16 <<< 8 := by
  have hb := b.isLt
  apply crcBits_eq_shiftLeft
  rw [BitVec.toNat_setWidth]
  omega

theorem crcBits_zero (n : Nat) : crcBits n 0 = 0 := by
  rw [crcBits_eq_shiftLeft n 0 (by simp)]
  simp

/-! Bytes -/

theorem crcByte_eq_zero_iff (c : Half) (b : Byte) : crcByte c b = 0 ↔ c = b.setWidth 16 <<< 8 := by
  rw [crcByte, ← crcBits_zero 8, (crcBits_injective 8).eq_iff]
  exact BitVec.xor_eq_zero_iff

/-- The two bytes of a half do not overlap. -/
theorem be16_eq_xor (x y : Byte) : be16 x y = y.setWidth 16 ^^^ (x.setWidth 16 <<< 8) := by
  apply BitVec.eq_of_getLsbD_eq
  intro i hi
  rcases Nat.lt_or_ge i 8 with hlow | hhigh
  · simp [be16, hlow]
  · have hy : y.getLsbD i = false := BitVec.getLsbD_of_ge y i hhigh
    simp [be16, hy]

/-- Two bytes bring the register to zero exactly when they are its own value, high byte first. -/
theorem crcByte_crcByte_eq_zero_iff (c : Half) (x y : Byte) : crcByte (crcByte c x) y = 0 ↔ c = be16 x y := by
  rw [crcByte_eq_zero_iff, crcByte, ← crcBits_eq_shiftLeft_byte y, (crcBits_injective 8).eq_iff, be16_eq_xor]
  exact xor_eq_iff_left_eq _ _ _

/-! Byte strings -/

/-- The residue, both ways (41_crc.md R114, R115). -/
theorem crc16_append_pair_eq_zero_iff (l : List Byte) (x y : Byte) :
    crc16 (l ++ [x, y]) = 0 ↔ crc16 l = be16 x y := by
  rw [crc16, List.foldl_append]
  exact crcByte_crcByte_eq_zero_iff (crc16 l) x y

theorem be16_bytes (c : Half) : be16 (c.extractLsb' 8 8) (c.extractLsb' 0 8) = c := by
  apply BitVec.eq_of_toNat_eq
  rw [be16_toNat, BitVec.extractLsb'_toNat, BitVec.extractLsb'_toNat, Nat.shiftRight_eq_div_pow,
    Nat.shiftRight_eq_div_pow]
  omega

theorem take_append_last_two {x : List Byte} (h : 2 ≤ x.length) :
    x.take (x.length - 2) ++ [byteAt x (x.length - 2), byteAt x (x.length - 1)] = x := by
  have hlast : x.drop (x.length - 2) = [byteAt x (x.length - 2), byteAt x (x.length - 1)] := by
    rw [List.drop_eq_getElem_cons (by omega), List.drop_eq_getElem_cons (by omega), List.drop_of_length_le (by omega)]
    simp [byteAt, show x.length - 2 + 1 = x.length - 1 by omega, show x.length - 2 < x.length by omega,
      show x.length - 1 < x.length by omega]
  rw [← hlast, List.take_append_drop]

/-- A string of two bytes or more ends in the CRC of the rest exactly when its own CRC is zero. -/
theorem crc16_take_eq_last_two_iff {x : List Byte} (h : 2 ≤ x.length) :
    crc16 (x.take (x.length - 2)) = be16 (byteAt x (x.length - 2)) (byteAt x (x.length - 1)) ↔ crc16 x = 0 := by
  rw [← crc16_append_pair_eq_zero_iff, take_append_last_two h]

/-! Checks -/

/-- The first check of a body, and what the statement of its operation says where the check passes. -/
theorem failsWith_or_of_body {i : Instr} {s : State} {c : Prop} [Decidable c] {code : ErrCode} {info : Word}
    {rest : Except CmdError Writes} {status : Word} {P : Prop}
    (hbody : commandBody i s = if c then .error ⟨code, info⟩ else rest)
    (hs : statusFailed i.opcode code.toByte = status) (hrest : commandBody i s = rest → P) :
    if c then failsWith i s status info else P := by
  by_cases hc : c
  · rw [if_pos hc] at hbody ⊢
    exact failsWith_of_body hbody hs
  · rw [if_neg hc] at hbody ⊢
    exact hrest hbody

/-- A half compared with a register as words, and as numbers. -/
theorem setWidth_eq_iff_toNat (c : Half) (v : Word) : c.setWidth 32 = v ↔ c.toNat = v.toNat := by
  rw [BitVec.toNat_eq, BitVec.toNat_setWidth_of_le (by decide)]

end Sys2Proof.Machine
end

section
/-! PROOF. The statements of the family 41_crc.md, each from the lemmas above. -/

open Sys2Proof Sys2Proof.Machine

namespace Sys2Proof.Proofs

/-- Settles O24: the two appended bytes are the CRC, high byte first. -/
theorem crcResidueIsZero : Obligations.CrcResidueIsZero :=
  fun x => (crc16_append_pair_eq_zero_iff x _ _).mpr (be16_bytes (crc16 x)).symm

/-- Settles O20: the check of IN_LEN, then the result. -/
theorem crcCalcResult : Obligations.CrcCalcResult :=
  ⟨fun s => failsWith_or_of_body (crcCalcBody_eq s) rfl fun hbody => completes_of_body hbody rfl,
    rfl, by simp [crc16, crcByte, crcBits, crcBit, crcPoly, crcInit]⟩

/-- Settles O21: the two checks, then the results; the CRC is compared with ARG0 as a number. -/
theorem crcVerifyResult : Obligations.CrcVerifyResult := by
  intro s
  have hbody := crcVerifyBody_eq s
  simp only [boolWord_beq, setWidth_eq_iff_toNat] at hbody
  exact failsWith_or_of_body hbody rfl fun hbody => failsWith_or_of_body hbody rfl fun hbody =>
    completes_of_body hbody rfl

/-- Settles O22: the two checks, then the result. -/
theorem crcAppendResult : Obligations.CrcAppendResult :=
  fun s => failsWith_or_of_body (crcAppendBody_eq s) rfl fun hbody => failsWith_or_of_body hbody rfl fun hbody =>
    completes_of_body hbody rfl

/-- Settles O23: the check of IN_LEN, the two lengths, and the residue law for a string of IN_LEN bytes. -/
theorem crcVerifyAppResult : Obligations.CrcVerifyAppResult := by
  refine fun s => ⟨failsWith_or_of_body (crcVerifyAppBody_eq s) rfl fun hbody => ?_, fun htwo => ?_⟩
  · split
    · next hshort =>
      rw [if_pos hshort] at hbody
      exact completes_of_body hbody rfl
    · next hlong =>
      rw [if_neg hlong, boolWord_beq] at hbody
      exact completes_of_body hbody rfl
  · rw [← inputString_length s] at htwo ⊢
    exact crc16_take_eq_last_two_iff htwo

end Sys2Proof.Proofs
end

section
/-! PROOF. The parity (42_parity.md R130): rotation of a byte is linear and can be undone, so the rotations of R130
add up to the closed form, and each byte's share of the parity is an injection of that byte. -/

namespace Sys2Proof.Machine

/-! Rotation of a byte -/

theorem rotl8_eq_rotateLeft (x : Byte) : rotl8 x = x.rotateLeft 1 := rfl

/-- Bit `i` of a byte rotated left `r` places came from `r` places below it, around the byte. -/
theorem getLsbD_rotateLeft_byte (x : Byte) (r : Nat) {i : Nat} (hi : i < 8) :
    (x.rotateLeft r).getLsbD i = x.getLsbD ((i + 8 - r % 8) % 8) := by
  rw [BitVec.getLsbD_rotateLeft]
  by_cases h : i < r % 8
  · rw [decide_eq_true h, cond_true]
    congr 1
    omega
  · rw [decide_eq_false h, cond_false, decide_eq_true hi, Bool.true_and]
    congr 1
    omega

theorem rotateLeft_rotateLeft (x : Byte) (m n : Nat) : (x.rotateLeft m).rotateLeft n = x.rotateLeft (m + n) := by
  apply BitVec.eq_of_getLsbD_eq
  intro i hi
  rw [getLsbD_rotateLeft_byte _ _ hi, getLsbD_rotateLeft_byte _ _ (Nat.mod_lt _ (by decide)),
    getLsbD_rotateLeft_byte _ _ hi]
  congr 1
  omega

theorem rotateLeft_xor (x y : Byte) (r : Nat) : (x ^^^ y).rotateLeft r = x.rotateLeft r ^^^ y.rotateLeft r := by
  apply BitVec.eq_of_getLsbD_eq
  intro i hi
  simp only [BitVec.getLsbD_xor, getLsbD_rotateLeft_byte _ _ hi]

theorem rotateLeft_eight (x : Byte) : x.rotateLeft 8 = x := by
  apply BitVec.eq_of_getLsbD_eq
  intro i hi
  rw [getLsbD_rotateLeft_byte _ _ hi]
  congr 1
  omega

theorem zero_rotateLeft (r : Nat) : (0 : Byte).rotateLeft r = 0 := by
  simp [BitVec.rotateLeft_def]

/-- A rotation of each term rotates their XOR. -/
theorem foldl_xor_rotateLeft (l : List Nat) (f : Nat → Byte) (r : Nat) :
    l.foldl (fun a k => a ^^^ (f k).rotateLeft r) 0 = (l.foldl (fun a k => a ^^^ f k) 0).rotateLeft r := by
  conv_lhs => rw [← zero_rotateLeft r]
  exact List.foldl_hom (fun x : Byte => x.rotateLeft r) fun x k => (rotateLeft_xor x (f k) r).symm

/-- Seven more places complete the turn. -/
theorem rotl8_injective : Function.Injective rotl8 :=
  Function.LeftInverse.injective (g := fun x => x.rotateLeft 7) fun x =>
    (rotateLeft_rotateLeft x 1 7).trans (rotateLeft_eight x)

/-! The closed form -/

theorem parity_concat (d : List Byte) (b : Byte) : parity (d ++ [b]) = (parity d).rotateLeft 1 ^^^ b.rotateLeft 1 := by
  rw [← rotateLeft_xor, ← rotl8_eq_rotateLeft, parity, List.foldl_append]
  rfl

/-- The XOR over the indices k of d, the byte at k rotated left |d| - k places (42_parity.md R133). -/
def xorRotated (d : List Byte) : Byte :=
  (List.range d.length).foldl (fun a k => a ^^^ (byteAt d k).rotateLeft (d.length - k)) 0

theorem byteAt_append_left {d e : List Byte} {k : Nat} (h : k < d.length) : byteAt (d ++ e) k = byteAt d k :=
  List.getD_append _ _ _ _ h

theorem byteAt_concat_length (d : List Byte) (b : Byte) : byteAt (d ++ [b]) d.length = b := by
  simp [byteAt]

/-- A further byte turns each earlier term one place, and so their XOR. -/
theorem xorRotated_concat (d : List Byte) (b : Byte) :
    xorRotated (d ++ [b]) = (xorRotated d).rotateLeft 1 ^^^ b.rotateLeft 1 := by
  have hturn : ∀ (a : Byte), ∀ k ∈ List.range d.length,
      a ^^^ (byteAt (d ++ [b]) k).rotateLeft (d.length + 1 - k) =
        a ^^^ ((byteAt d k).rotateLeft (d.length - k)).rotateLeft 1 := by
    intro a k hk
    have hk := List.mem_range.mp hk
    rw [byteAt_append_left hk, rotateLeft_rotateLeft, Nat.sub_add_comm hk.le]
  rw [xorRotated, List.length_append, List.length_singleton, List.range_succ, List.foldl_append,
    List.foldl_ext _ _ _ hturn, List.foldl_cons, List.foldl_nil, byteAt_concat_length, Nat.add_sub_cancel_left,
    foldl_xor_rotateLeft, xorRotated]

theorem parity_eq_xorRotated (d : List Byte) : parity d = xorRotated d := by
  induction d using List.reverseRecOn with
  | nil => rfl
  | append_singleton d b ih => rw [parity_concat, xorRotated_concat, ih]

/-! One changed byte -/

/-- The accumulator after the bytes `d` tells what it was before them. -/
theorem parityFold_injective (d : List Byte) :
    Function.Injective fun a => d.foldl (fun a b => rotl8 (a ^^^ b)) a := by
  induction d with
  | nil => exact fun _ _ h => h
  | cons b d ih => exact fun x y h => (BitVec.xor_left_inj b).mp (rotl8_injective (ih h))

/-- With the bytes around it fixed, a byte is determined by the parity. -/
theorem parity_append_cons_injective (d e : List Byte) : Function.Injective fun v => parity (d ++ v :: e) := by
  intro v w h
  simp only [parity, List.foldl_append, List.foldl_cons] at h
  exact (BitVec.xor_right_inj _).mp (rotl8_injective (parityFold_injective e h))

theorem parity_set_injective {d : List Byte} {k : Nat} (hk : k < d.length) :
    Function.Injective fun v => parity (d.set k v) := by
  simp only [List.set_eq_take_append_cons_drop, if_pos hk]
  exact parity_append_cons_injective _ _

theorem set_byteAt_self {d : List Byte} {k : Nat} (hk : k < d.length) : d.set k (byteAt d k) = d := by
  rw [byteAt, List.getD_eq_getElem _ _ hk, List.set_getElem_self]

theorem parity_set_eq_iff {d : List Byte} {k : Nat} {v : Byte} (hk : k < d.length) :
    parity (d.set k v) = parity d ↔ v = byteAt d k := by
  simpa only [set_byteAt_self hk] using (parity_set_injective hk).eq_iff (a := v) (b := byteAt d k)

end Sys2Proof.Machine
end

section
/-! PROOF. The statements of the family 42_parity.md, each from the lemmas above. -/

open Sys2Proof Sys2Proof.Machine

namespace Sys2Proof.Proofs

/-- Settles O25: the check of IN_LEN, then the result. -/
theorem parCalcResult : Obligations.ParCalcResult :=
  ⟨fun s => failsWith_or_of_body (parCalcBody_eq s) rfl fun hbody => completes_of_body hbody rfl,
    rfl, by decide, by decide⟩

/-- Settles O26: the three checks, the last of which puts the compared byte inside the input string. -/
theorem parVerifyResult : Obligations.ParVerifyResult := by
  refine fun s => failsWith_or_of_body (parVerifyBody_eq s) rfl fun hbody =>
    failsWith_or_of_body hbody rfl fun hbody => ?_
  by_cases hshort : s.inLen.toNat < argNat s 0 + 1
  · rw [if_pos hshort] at hbody ⊢
    exact failsWith_of_body hbody rfl
  · rw [if_neg hshort, inputString_byteAt s _ (by omega), boolWord_beq] at hbody
    rw [if_neg hshort]
    exact completes_of_body hbody rfl

/-- Settles O27. -/
theorem parityClosedForm : Obligations.ParityClosedForm := parity_eq_xorRotated

/-- Settles O28: setting a byte keeps the parity only where it sets the byte's own value. -/
theorem parityDetectsOneChangedByte : Obligations.ParityDetectsOneChangedByte :=
  ⟨fun _ _ _ hk hv hparity => hv ((parity_set_eq_iff hk).mp hparity), by decide⟩

end Sys2Proof.Proofs
end

section
/-! PROOF. The CLTU (43_cltu.md): a unit block by block, as the encoder lays it out and the decoder reads it; the fill
bytes stripped at the end; and what a change of one byte does to a valid unit. -/

namespace Sys2Proof.Machine

/-! The encoder's blocks (43_cltu.md R150, R151) -/

theorem blockData_eq_map (p : List Byte) (i : Nat) :
    blockData p i = (List.range 7).map fun j => p.getD (7 * i + j) cltuFill := by
  apply List.ext_getElem
  · simp [blockData]
  · intro j hj hj'
    have hj7 : j < 7 := by simpa using hj'
    simp only [blockData, List.getElem_append, List.length_take, List.length_drop, List.getElem_take, List.getElem_drop,
      List.getElem_replicate, List.getElem_map, List.getElem_range]
    split
    · rw [List.getD_eq_getElem _ _ (by omega)]
    · rw [List.getD_eq_default _ _ (by omega)]

@[simp] theorem length_blockData (p : List Byte) (i : Nat) : (blockData p i).length = 7 := by
  simp [blockData_eq_map]

@[simp] theorem length_codeBlock (d : List Byte) : (codeBlock d).length = d.length + 1 := by
  simp [codeBlock]

/-- Blocks of one length, one after the other. -/
theorem length_flatMap_range {f : Nat → List Byte} {m : Nat} (hf : ∀ i, (f i).length = m) (n : Nat) :
    ((List.range n).flatMap f).length = m * n := by
  simp [List.length_flatMap, hf, Nat.mul_comm]

/-- The code blocks of a payload, between the two markers. -/
def codeBlocks (p : List Byte) (n : Nat) : List Byte := (List.range n).flatMap fun i => codeBlock (blockData p i)

theorem length_codeBlocks (p : List Byte) (n : Nat) : (codeBlocks p n).length = 8 * n :=
  length_flatMap_range (by simp) n

theorem ceilDiv_seven (a : Nat) : ceilDiv a 7 = (a + 6) / 7 := rfl

theorem length_start_codeBlocks (p : List Byte) (n : Nat) : (cltuStart ++ codeBlocks p n).length = 2 + 8 * n := by
  rw [List.length_append, length_codeBlocks]
  rfl

theorem cltuEncode_eq (p : List Byte) : cltuEncode p = cltuStart ++ codeBlocks p ((p.length + 6) / 7) ++ cltuTail := rfl

theorem length_cltuEncode (p : List Byte) : (cltuEncode p).length = 9 + 8 * ((p.length + 6) / 7) := by
  simp only [cltuEncode_eq, List.length_append, length_codeBlocks, cltuStart, cltuTail, List.length_cons,
    List.length_nil, List.length_replicate]
  omega

theorem take_two_cltuEncode (p : List Byte) : (cltuEncode p).take 2 = cltuStart := rfl

theorem drop_blocks_cltuEncode (p : List Byte) : (cltuEncode p).drop (2 + 8 * ((p.length + 6) / 7)) = cltuTail :=
  List.drop_left' (by exact length_start_codeBlocks p _)

/-- Eight bytes that stand where block `i` does are what the decoder reads as block `i`. -/
theorem receivedBlock_append {pre blk : List Byte} {i : Nat} (post : List Byte) (hpre : pre.length = 2 + 8 * i)
    (hblk : blk.length = 8) : receivedBlock (pre ++ blk ++ post) i = blk := by
  rw [receivedBlock, List.append_assoc, List.drop_left' hpre, List.take_left' hblk]

/-- The first `i + 1` blocks of `n` are the first `i`, then block `i`. -/
theorem codeBlocks_split (p : List Byte) {n i : Nat} (hi : i < n) :
    ∃ rest, codeBlocks p n = codeBlocks p i ++ codeBlock (blockData p i) ++ rest := by
  obtain ⟨k, rfl⟩ := Nat.exists_eq_add_of_lt hi
  simp only [codeBlocks, Nat.add_right_comm i k 1, List.range_add (n := i + 1), List.range_succ, List.flatMap_append,
    List.flatMap_singleton]
  exact ⟨_, rfl⟩

/-- The decoder reads the encoder's blocks. -/
theorem receivedBlock_cltuEncode (p : List Byte) {i : Nat} (hi : i < (p.length + 6) / 7) :
    receivedBlock (cltuEncode p) i = codeBlock (blockData p i) := by
  obtain ⟨rest, hsplit⟩ := codeBlocks_split p hi
  rw [cltuEncode_eq, hsplit, ← List.append_assoc, ← List.append_assoc, List.append_assoc _ rest]
  exact receivedBlock_append _ (length_start_codeBlocks p i) (by simp)

/-! The decoder's blocks (43_cltu.md R153) -/

theorem byteAt_receivedBlock (b : List Byte) (i : Nat) {j : Nat} (hj : j < 8) :
    byteAt (receivedBlock b i) j = byteAt b (2 + 8 * i + j) := by
  simp [byteAt, receivedBlock, hj]

theorem take_receivedBlock (b : List Byte) (i : Nat) : (receivedBlock b i).take 7 = (b.drop (2 + 8 * i)).take 7 := by
  rw [receivedBlock, List.take_take]
  rfl

/-- The parity byte of block `i` of the unit `b` is the parity of the block's data. -/
def BlockValid (b : List Byte) (i : Nat) : Prop := parity ((b.drop (2 + 8 * i)).take 7) = byteAt b (2 + 8 * i + 7)

theorem blockParityOk_iff (b : List Byte) (i : Nat) : blockParityOk (receivedBlock b i) = true ↔ BlockValid b i := by
  rw [blockParityOk, beq_iff_eq, take_receivedBlock, byteAt_receivedBlock b i (by decide), BlockValid]

/-- The data bytes of the first `n` blocks of the unit `b`. -/
def unitData (b : List Byte) (n : Nat) : List Byte := (List.range n).flatMap fun i => (b.drop (2 + 8 * i)).take 7

theorem decodeBlocks_eq_ok_iff {b d : List Byte} {n : Nat} :
    decodeBlocks b n = .ok d ↔ (∀ i < n, BlockValid b i) ∧ d = unitData b n := by
  have hnone : (List.range n).find? (fun i => !blockParityOk (receivedBlock b i)) = none ↔ ∀ i < n, BlockValid b i := by
    simp only [List.find?_range_eq_none, Bool.not_not, blockParityOk_iff]
  rw [← hnone, decodeBlocks]
  split
  · next h => simp [h]
  · next h => simp [h, unitData, take_receivedBlock, eq_comm]

theorem decodeBlocks_eq_error_iff {b : List Byte} {n : Nat} {e : CmdError} :
    decodeBlocks b n = .error e ↔
      ∃ i < n, ¬BlockValid b i ∧ (∀ j < i, BlockValid b j) ∧ e = ⟨.cltuBlockParity, BitVec.ofNat 32 i⟩ := by
  have hsome (i : Nat) : (List.range n).find? (fun i => !blockParityOk (receivedBlock b i)) = some i ↔
      ¬BlockValid b i ∧ i < n ∧ ∀ j < i, BlockValid b j := by
    simp only [List.find?_range_eq_some, Bool.not_not, blockParityOk_iff, List.mem_range, Bool.not_eq_true',
      ← Bool.not_eq_true]
  rw [decodeBlocks]
  split
  · next i h =>
    obtain ⟨hbad, hi, hfirst⟩ := (hsome i).mp h
    constructor
    · rintro ⟨⟩
      exact ⟨i, hi, hbad, hfirst, rfl⟩
    · rintro ⟨j, hj, hbadj, hfirstj, rfl⟩
      rw [h] at hsome
      cases (hsome j).mpr ⟨hbadj, hj, hfirstj⟩
      rfl
  · next h =>
    rw [h] at hsome
    exact ⟨nofun, fun ⟨i, hi, hbad, hfirst, _⟩ => nomatch (hsome i).mpr ⟨hbad, hi, hfirst⟩⟩

/-! The fill bytes (43_cltu.md R153, R156) -/

/-- `dropFill` drops a run of fill bytes: all it may, or all there are at the front. -/
theorem dropFill_spec (k : Nat) (l : List Byte) :
    ∃ m ≤ k, l = List.replicate m cltuFill ++ dropFill k l ∧ (m = k ∨ (dropFill k l).head? ≠ some cltuFill) := by
  induction k generalizing l with
  | zero => exact ⟨0, Nat.le_refl _, rfl, .inl rfl⟩
  | succ k ih =>
    cases l with
    | nil => exact ⟨0, Nat.zero_le _, rfl, .inr nofun⟩
    | cons c l =>
      by_cases hc : c = cltuFill
      · obtain ⟨m, hm, hl, hstop⟩ := ih l
        rw [dropFill, if_pos hc]
        refine ⟨m + 1, Nat.succ_le_succ hm, ?_, hstop.imp_left (congrArg (· + 1))⟩
        rw [List.replicate_succ, List.cons_append, ← hl, hc]
      · rw [dropFill, if_neg hc]
        exact ⟨0, Nat.zero_le _, rfl, .inr (by simpa using hc)⟩

/-- `stripFill` takes fill bytes from the end: none below the expected length, and none is left above it. -/
theorem stripFill_spec (e : Nat) (data : List Byte) :
    ∃ k, data = stripFill e data ++ List.replicate k cltuFill ∧ (k = 0 ∨ e ≤ (stripFill e data).length) ∧
      ((stripFill e data).length ≤ e ∨ (stripFill e data).getLast? ≠ some cltuFill) := by
  obtain ⟨k, hk, hdata, hstop⟩ := dropFill_spec (data.length - e) data.reverse
  have hsplit : data = stripFill e data ++ List.replicate k cltuFill := by
    rw [stripFill, ← List.reverse_replicate, ← List.reverse_append, ← hdata, List.reverse_reverse]
  have hlen : data.length = (stripFill e data).length + k := by
    simpa only [List.length_append, List.length_replicate] using congrArg List.length hsplit
  refine ⟨k, hsplit, by omega, ?_⟩
  rcases hstop with hstop | hstop
  · exact .inl (by omega)
  · exact .inr (by rwa [stripFill, List.getLast?_reverse])

theorem length_stripFill_le (e : Nat) (data : List Byte) : (stripFill e data).length ≤ data.length := by
  obtain ⟨k, hsplit, -⟩ := stripFill_spec e data
  have hlen := congrArg List.length hsplit
  rw [List.length_append] at hlen
  omega

/-- Nothing is stripped exactly where the spec's loop does not start. -/
theorem stripFill_eq_self_iff (e : Nat) (data : List Byte) :
    stripFill e data = data ↔ data.length ≤ e ∨ data.getLast? ≠ some cltuFill := by
  obtain ⟨k, hsplit, hlow, hstop⟩ := stripFill_spec e data
  constructor
  · intro h
    rwa [h] at hstop
  · intro h
    cases k with
    | zero => simpa using hsplit.symm
    | succ k =>
      have hlen := congrArg List.length hsplit
      have hlast := congrArg List.getLast? hsplit
      simp only [List.length_append, List.length_replicate] at hlen
      simp only [List.replicate_succ', ← List.append_assoc, List.getLast?_concat] at hlast
      rcases h with h | h
      · omega
      · exact absurd hlast h

theorem dropFill_replicate_append (m k : Nat) (l : List Byte) :
    dropFill (m + k) (List.replicate m cltuFill ++ l) = dropFill k l := by
  induction m with
  | zero => simp
  | succ m ih => rw [Nat.succ_add, List.replicate_succ, List.cons_append, dropFill, if_pos rfl, ih]

/-- The fill bytes of the last block are stripped before any byte of the payload. -/
theorem stripFill_append_replicate {e : Nat} {p : List Byte} (h : e ≤ p.length) (m : Nat) :
    stripFill e (p ++ List.replicate m cltuFill) = stripFill e p := by
  simp only [stripFill, List.length_append, List.length_replicate, List.reverse_append, List.reverse_replicate]
  rw [show p.length + m - e = m + (p.length - e) by omega, dropFill_replicate_append]

/-! A valid unit -/

/-- A unit that passes every check of 43_cltu.md R153. -/
structure ValidUnit (b : List Byte) : Prop where
  start : b.take 2 = cltuStart
  tail : 9 ≤ b.length ∧ b.drop (b.length - 7) = cltuTail
  whole : (b.length - 9) % 8 = 0
  blocks : ∀ i < (b.length - 9) / 8, BlockValid b i

/-- The end of CLTU_DEC: the result `data` of `n` blocks, if OUT has room for it. -/
def deliverData (s : State) (n : Nat) (data : List Byte) : Except CmdError Writes :=
  if s.params.outCap < data.length then .error ⟨.outOverflow, BitVec.ofNat 32 data.length⟩
  else .ok { results := [(0, BitVec.ofNat 32 n)], output := some data }

/-- The decoder as one chain of checks. -/
theorem cltuDecode_eq (b : List Byte) (e : Nat) : cltuDecode b e =
    if ¬b.take 2 = cltuStart then .error ⟨.cltuInvalidStart, 0⟩
    else if ¬(9 ≤ b.length ∧ b.drop (b.length - 7) = cltuTail) then .error ⟨.cltuInvalidTail, 0⟩
    else if (b.length - 9) % 8 ≠ 0 then .error ⟨.cltuBadLength, BitVec.ofNat 32 (b.length - 9)⟩
    else decodeBlocks b ((b.length - 9) / 8) >>= fun data => .ok (stripFill e data, (b.length - 9) / 8) := by
  simp only [cltuDecode, require_bind, ite_not, ne_eq]
  rfl

/-- CLTU_DEC as one chain of checks. -/
theorem cltuDecBody_checks (s : State) : commandBody .cltuDec s =
    if s.params.inCap < s.inLen.toNat then .error ⟨.inLenInvalid, s.inLen⟩
    else if ¬(inputString s).take 2 = cltuStart then .error ⟨.cltuInvalidStart, 0⟩
    else if ¬(9 ≤ (inputString s).length ∧ (inputString s).drop ((inputString s).length - 7) = cltuTail) then
      .error ⟨.cltuInvalidTail, 0⟩
    else if ((inputString s).length - 9) % 8 ≠ 0 then
      .error ⟨.cltuBadLength, BitVec.ofNat 32 ((inputString s).length - 9)⟩
    else decodeBlocks (inputString s) (((inputString s).length - 9) / 8) >>= fun data =>
      deliverData s (((inputString s).length - 9) / 8) (stripFill (argNat s 0) data) := by
  have hbody : commandBody .cltuDec s = if s.params.inCap < s.inLen.toNat then .error ⟨.inLenInvalid, s.inLen⟩
      else cltuDecode (inputString s) (argNat s 0) >>= fun d => deliverData s d.2 d.1 := by
    rw [commandBody, cltuDecBody, requireInput, require_le_bind]
    simp only [requireRoom, require_le_bind]
    rfl
  rw [hbody, cltuDecode_eq]
  congr 1
  split
  · rfl
  split
  · rfl
  split
  · rfl
  · rw [bind_assoc]
    rfl

/-- After the checks of the markers and of the length, only the blocks and the room in OUT are left. -/
theorem cltuDecBody_of_markers {s : State} (hcap : s.inLen.toNat ≤ s.params.inCap)
    (hstart : (inputString s).take 2 = cltuStart)
    (htail : 9 ≤ (inputString s).length ∧ (inputString s).drop ((inputString s).length - 7) = cltuTail)
    (hwhole : ((inputString s).length - 9) % 8 = 0) :
    commandBody .cltuDec s = decodeBlocks (inputString s) (((inputString s).length - 9) / 8) >>= fun data =>
      deliverData s (((inputString s).length - 9) / 8) (stripFill (argNat s 0) data) := by
  rw [cltuDecBody_checks, if_neg (Nat.not_lt.mpr hcap), if_neg (not_not.mpr hstart), if_neg (not_not.mpr htail),
    if_neg (not_not.mpr hwhole)]

/-- On a valid unit only OUT can be too small. -/
theorem cltuDecBody_of_valid {s : State} (hcap : s.inLen.toNat ≤ s.params.inCap) (h : ValidUnit (inputString s)) :
    commandBody .cltuDec s = deliverData s (((inputString s).length - 9) / 8)
      (stripFill (argNat s 0) (unitData (inputString s) (((inputString s).length - 9) / 8))) := by
  rw [cltuDecBody_of_markers hcap h.start h.tail h.whole, decodeBlocks_eq_ok_iff.mpr ⟨h.blocks, rfl⟩]
  rfl

/-- The first two bytes are the start marker, byte by byte. -/
theorem take_two_ne_start_iff (b : List Byte) :
    ¬b.take 2 = cltuStart ↔ b.length < 2 ∨ byteAt b 0 ≠ 0xEB ∨ byteAt b 1 ≠ 0x90 := by
  match b with
  | [] => simp [cltuStart]
  | [_] => simp [cltuStart]
  | x :: y :: l =>
    simp [cltuStart, byteAt, imp_iff_not_or]

theorem not_tail_iff (b : List Byte) :
    ¬(9 ≤ b.length ∧ b.drop (b.length - 7) = cltuTail) ↔
      b.length < 9 ∨ b.drop (b.length - 7) ≠ List.replicate 7 0xC5 := by
  rw [not_and_or, Nat.not_le]
  rfl

/-- A body that can raise no error but OUT_OVERFLOW. -/
def OnlyOverflows (body : Except CmdError Writes) : Prop :=
  ∀ code info, body = .error ⟨code, info⟩ → code = .outOverflow

/-- Every other check of such a body passes. -/
theorem onlyOverflows_of_check {c : Prop} [Decidable c] {code : ErrCode} {info : Word} {rest : Except CmdError Writes}
    (h : OnlyOverflows (if c then .error ⟨code, info⟩ else rest)) (hcode : code ≠ .outOverflow) :
    ¬c ∧ OnlyOverflows rest := by
  have hc : ¬c := fun hc => hcode (h code info (if_pos hc))
  rw [if_neg hc] at h
  exact ⟨hc, h⟩

/-- Where CLTU_DEC can only find OUT too small, the unit is a valid one. -/
theorem validUnit_of_onlyOverflows {s : State} (h : OnlyOverflows (commandBody .cltuDec s)) :
    s.inLen.toNat ≤ s.params.inCap ∧ ValidUnit (inputString s) := by
  rw [cltuDecBody_checks] at h
  obtain ⟨hcap, h⟩ := onlyOverflows_of_check h nofun
  obtain ⟨hstart, h⟩ := onlyOverflows_of_check h nofun
  obtain ⟨htail, h⟩ := onlyOverflows_of_check h nofun
  obtain ⟨hwhole, h⟩ := onlyOverflows_of_check h nofun
  refine ⟨Nat.not_lt.mp hcap, not_not.mp hstart, not_not.mp htail, not_not.mp hwhole, ?_⟩
  cases hd : decodeBlocks (inputString s) (((inputString s).length - 9) / 8) with
  | ok d => exact (decodeBlocks_eq_ok_iff.mp hd).1
  | error e =>
    obtain ⟨i, -, -, -, rfl⟩ := decodeBlocks_eq_error_iff.mp hd
    rw [hd] at h
    cases h _ _ rfl

theorem eq_outOverflow_of_status {code : ErrCode}
    (h : statusFailed Instr.cltuDec.opcode code.toByte ∈ [(0x00310001 : Word), 0x00310502]) : code = .outOverflow := by
  cases code with
  | outOverflow => rfl
  | _ => exact absurd h (by decide)

/-- A unit that CLTU_DEC accepts, but perhaps for want of room in OUT, is a valid one. -/
theorem validUnit_of_exec {s t : State} (h : exec .cltuDec s = .next t)
    (hs : t.status = 0x00310001 ∨ t.status = 0x00310502) :
    s.inLen.toNat ≤ s.params.inCap ∧ ValidUnit (inputString s) := by
  apply validUnit_of_onlyOverflows
  intro code info hbody
  rw [exec_eq_runCommand, hbody] at h
  cases h
  rw [takeError_status] at hs
  exact eq_outOverflow_of_status (by simpa using hs)

/-! The encoder's unit (43_cltu.md R156) -/

theorem data_of_encoded (p : List Byte) {i : Nat} (hi : i < (p.length + 6) / 7) :
    ((cltuEncode p).drop (2 + 8 * i)).take 7 = blockData p i := by
  rw [← take_receivedBlock, receivedBlock_cltuEncode p hi, codeBlock, List.take_left' (length_blockData p i)]

theorem parityByte_of_encoded (p : List Byte) {i : Nat} (hi : i < (p.length + 6) / 7) :
    byteAt (cltuEncode p) (2 + 8 * i + 7) = parity (blockData p i) := by
  rw [← byteAt_receivedBlock _ i (by decide), receivedBlock_cltuEncode p hi]
  have hlast := byteAt_concat_length (blockData p i) (parity (blockData p i))
  rwa [length_blockData] at hlast

theorem validUnit_cltuEncode (p : List Byte) : ValidUnit (cltuEncode p) where
  start := take_two_cltuEncode p
  tail := by
    have hlen := length_cltuEncode p
    refine ⟨by omega, ?_⟩
    rw [← drop_blocks_cltuEncode p]
    congr 1
    omega
  whole := by rw [length_cltuEncode]; omega
  blocks i hi := by
    have hi : i < (p.length + 6) / 7 := by rw [length_cltuEncode] at hi; omega
    rw [BlockValid, data_of_encoded p hi, parityByte_of_encoded p hi]

/-- Blocks of data one after the other are the payload with the fill byte past its end. -/
theorem flatMap_blockData (p : List Byte) (n : Nat) :
    (List.range n).flatMap (blockData p) = (List.range (7 * n)).map fun a => p.getD a cltuFill := by
  induction n with
  | zero => rfl
  | succ n ih =>
    rw [List.range_succ, List.flatMap_append, ih, List.flatMap_singleton, Nat.mul_succ, List.range_add, List.map_append,
      blockData_eq_map, List.map_map]
    rfl

theorem map_getD_range {p : List Byte} {n : Nat} (h : p.length ≤ n) :
    (List.range n).map (fun a => p.getD a cltuFill) = p ++ List.replicate (n - p.length) cltuFill := by
  apply List.ext_getElem
  · simp
    omega
  · intro a ha ha'
    simp only [List.getElem_map, List.getElem_range, List.getElem_append, List.getElem_replicate]
    split
    · rw [List.getD_eq_getElem _ _ (by assumption)]
    · rw [List.getD_eq_default _ _ (by omega)]

/-- The data of the encoder's blocks: the payload and the fill bytes of the last block. -/
theorem unitData_cltuEncode (p : List Byte) :
    unitData (cltuEncode p) ((p.length + 6) / 7) =
      p ++ List.replicate (7 * ((p.length + 6) / 7) - p.length) cltuFill := by
  rw [← map_getD_range (by omega), ← flatMap_blockData, unitData, List.flatMap_def, List.flatMap_def]
  congr 1
  exact List.map_congr_left fun i hi => data_of_encoded p (List.mem_range.mp hi)

theorem length_unitData_cltuEncode (p : List Byte) :
    (unitData (cltuEncode p) ((p.length + 6) / 7)).length = 7 * ((p.length + 6) / 7) := by
  rw [unitData_cltuEncode, List.length_append, List.length_replicate]
  omega

/-- CLTU_DEC of an encoded payload: the blocks' data with the fill bytes stripped. -/
theorem cltuDec_cltuEncode {s : State} {p : List Byte} (hin : inputString s = cltuEncode p)
    (hcap : (cltuEncode p).length ≤ s.params.inCap) (hroom : 7 * ((p.length + 6) / 7) ≤ s.params.outCap) :
    completes .cltuDec s 0x00310001 [(0, BitVec.ofNat 32 ((p.length + 6) / 7))]
      (some (stripFill (argNat s 0) (p ++ List.replicate (7 * ((p.length + 6) / 7) - p.length) cltuFill))) none := by
  have hblocks : ((cltuEncode p).length - 9) / 8 = (p.length + 6) / 7 := by rw [length_cltuEncode]; omega
  have hbody := cltuDecBody_of_valid (by rwa [← inputString_length, hin]) (hin ▸ validUnit_cltuEncode p)
  have hfit := length_stripFill_le (argNat s 0) (unitData (cltuEncode p) ((p.length + 6) / 7))
  rw [length_unitData_cltuEncode] at hfit
  rw [hin, hblocks, deliverData, if_neg (by omega)] at hbody
  rw [← unitData_cltuEncode]
  exact completes_of_body hbody rfl

theorem status_of_completes {i : Instr} {s : State} {status : Word} {results : List (Fin 16 × Word)}
    {output input : Option (List Byte)} (h : completes i s status results output input) :
    ∃ t, exec i s = .next t ∧ t.status = status := by
  obtain ⟨t, ht, hstatus, -⟩ := h
  exact ⟨t, ht, hstatus⟩

/-- After a command that wrote an output string, that is what `OUT[0 : OUT_LEN]` holds. -/
theorem outputString_of_commandEffect {s t : State} {status : Word} {results : List (Fin 16 × Word)} {r : List Byte}
    {input : Option (List Byte)} (h : commandEffect s t status results (some r) input) (hr : r.length < 2 ^ 32) :
    outputString t = r := by
  obtain ⟨-, -, -, hlen, hout, -⟩ := h
  have hlen : t.outLen.toNat = r.length := by rw [hlen]; exact Nat.mod_eq_of_lt hr
  apply List.ext_getElem
  · rw [outputString_length, hlen]
  · intro a _ ha
    simp [outputString, hout, ha]

/-! One changed byte (43_cltu.md R157) -/

theorem byteAt_set_self {b : List Byte} {k : Nat} (hk : k < b.length) (v : Byte) : byteAt (b.set k v) k = v := by
  simp [byteAt, hk]

theorem byteAt_set_ne {k a : Nat} (h : k ≠ a) (b : List Byte) (v : Byte) : byteAt (b.set k v) a = byteAt b a := by
  simp [byteAt, h]

theorem byteAt_take {k m : Nat} (h : k < m) (b : List Byte) : byteAt (b.take m) k = byteAt b k := by
  simp [byteAt, h]

theorem byteAt_drop (b : List Byte) (m k : Nat) : byteAt (b.drop m) k = byteAt b (m + k) := by
  simp [byteAt]

/-- A changed start marker is none. -/
theorem take_set_ne_start {b : List Byte} {k : Nat} {v : Byte} (hstart : b.take 2 = cltuStart) (hk : k < 2)
    (hlen : k < b.length) (hv : v ≠ byteAt b k) : (b.set k v).take 2 ≠ cltuStart := by
  intro h
  have hbyte := congrArg (byteAt · k) (h.trans hstart.symm)
  simp only [byteAt_take hk, byteAt_set_self hlen] at hbyte
  exact hv hbyte

/-- A changed tail is none. -/
theorem drop_set_ne_tail {b : List Byte} {k m : Nat} {v : Byte} (htail : b.drop m = cltuTail) (hk : m ≤ k)
    (hlen : k < b.length) (hv : v ≠ byteAt b k) : (b.set k v).drop m ≠ cltuTail := by
  intro h
  have hbyte := congrArg (byteAt · (k - m)) (h.trans htail.symm)
  simp only [byteAt_drop, Nat.add_sub_cancel' hk, byteAt_set_self hlen] at hbyte
  exact hv hbyte

/-- A block does not read what stands after it. -/
theorem blockValid_set_of_le {i k : Nat} (h : 2 + 8 * i + 8 ≤ k) (b : List Byte) (v : Byte) :
    BlockValid (b.set k v) i ↔ BlockValid b i := by
  rw [BlockValid, BlockValid, byteAt_set_ne (by omega), List.drop_set, if_neg (by omega),
    List.take_set_of_le (by omega)]

/-- A change of one byte of a valid block, data or parity, makes it invalid. -/
theorem not_blockValid_set {b : List Byte} {i j : Nat} {v : Byte} (hj : j < 8) (hlen : 2 + 8 * i + 8 ≤ b.length)
    (hv : v ≠ byteAt b (2 + 8 * i + j)) (h : BlockValid b i) : ¬BlockValid (b.set (2 + 8 * i + j) v) i := by
  rw [BlockValid] at h ⊢
  rw [List.drop_set, if_neg (by omega), Nat.add_sub_cancel_left]
  rcases Nat.lt_succ_iff_lt_or_eq.mp hj with hdata | rfl
  · rw [byteAt_set_ne (by omega), List.take_set, ← h, parity_set_eq_iff (by simp; omega), byteAt_take hdata,
      byteAt_drop]
    exact hv
  · rw [byteAt_set_self (by omega), List.take_set_of_le (by omega), h]
    exact hv.symm

section
variable {u : State} {b : List Byte} {k : Nat} {v : Byte} (hcap : u.inLen.toNat ≤ u.params.inCap) (hb : ValidUnit b)
  (hk : k < b.length) (hv : v ≠ byteAt b k) (hu : inputString u = b.set k v)
include hu

theorem length_changedUnit : (inputString u).length = b.length := by
  rw [hu, List.length_set]

include hb

theorem start_changedUnit (h : 2 ≤ k) : (inputString u).take 2 = cltuStart := by
  rw [hu, List.take_set_of_le h, hb.start]

theorem tail_changedUnit (h : k < b.length - 7) : (inputString u).drop ((inputString u).length - 7) = cltuTail := by
  rw [length_changedUnit hu, hu, List.drop_set_of_lt h, hb.tail.2]

include hcap hk hv

theorem failsWith_of_startChanged (h : k < 2) : failsWith .cltuDec u 0x00311002 0 := by
  have hbad : (inputString u).take 2 ≠ cltuStart := hu ▸ take_set_ne_start hb.start h hk hv
  have hbody := cltuDecBody_checks u
  rw [if_neg (Nat.not_lt.mpr hcap), if_pos hbad] at hbody
  exact failsWith_of_body hbody rfl

theorem failsWith_of_tailChanged (h : b.length - 7 ≤ k) : failsWith .cltuDec u 0x00311102 0 := by
  obtain ⟨hsize, htail⟩ := hb.tail
  have hstart := start_changedUnit hb hu (by omega)
  have hbad : ¬(9 ≤ (inputString u).length ∧ (inputString u).drop ((inputString u).length - 7) = cltuTail) := by
    rw [length_changedUnit hu, hu]
    exact fun hgood => drop_set_ne_tail htail h hk hv hgood.2
  have hbody := cltuDecBody_checks u
  rw [if_neg (Nat.not_lt.mpr hcap), if_neg (not_not.mpr hstart), if_pos hbad] at hbody
  exact failsWith_of_body hbody rfl

/-- The block of the changed byte is invalid, and the blocks before it do not read that byte. -/
theorem failsWith_of_blockChanged (hlow : 2 ≤ k) (hhigh : k < b.length - 7) :
    failsWith .cltuDec u 0x00311302 (BitVec.ofNat 32 ((k - 2) / 8)) := by
  have hwhole := hb.whole
  have hlen := length_changedUnit hu
  have hbody := cltuDecBody_of_markers hcap (start_changedUnit hb hu hlow) ⟨by omega, tail_changedUnit hb hu hhigh⟩
    (by rwa [hlen])
  obtain ⟨i, hi⟩ : ∃ i, i = (k - 2) / 8 := ⟨_, rfl⟩
  obtain ⟨j, hj, rfl⟩ : ∃ j < 8, k = 2 + 8 * i + j := ⟨(k - 2) % 8, by omega, by omega⟩
  have hbad : ¬BlockValid (inputString u) i := by
    rw [hu]
    exact not_blockValid_set hj (by omega) hv (hb.blocks i (by omega))
  have hfirst (a : Nat) (ha : a < i) : BlockValid (inputString u) a := by
    rw [hu, blockValid_set_of_le (by omega)]
    exact hb.blocks a (by omega)
  rw [decodeBlocks_eq_error_iff.mpr ⟨i, by omega, hbad, hfirst, rfl⟩] at hbody
  rw [← hi]
  exact failsWith_of_body hbody rfl

end

end Sys2Proof.Machine
end

section
/-! PROOF. The statements of the family 43_cltu.md, each from the lemmas above. -/

open Sys2Proof Sys2Proof.Machine

namespace Sys2Proof.Proofs

/-- Settles O29: the data byte j of block i is byte j of `blockData p i`. -/
theorem cltuEncodeLayout : Obligations.CltuEncodeLayout := by
  refine fun p => ⟨length_cltuEncode p, take_two_cltuEncode p, drop_blocks_cltuEncode p,
    fun i hi => ⟨fun j hj => ?_, ?_⟩⟩
  · rw [← byteAt_receivedBlock _ i (by omega), receivedBlock_cltuEncode p hi, codeBlock,
      byteAt_append_left (by rwa [length_blockData]), blockData_eq_map]
    simp [byteAt, hj, cltuFill]
  · rw [parityByte_of_encoded p hi, blockData_eq_map, cltuFill]

/-- Settles O30: the two checks, then the result. -/
theorem cltuEncResult : Obligations.CltuEncResult := by
  intro s
  have hbody : commandBody .cltuEnc s = _ := cltuEncBody_eq s
  rw [length_cltuEncode, inputString_length, ceilDiv_seven] at hbody
  exact failsWith_or_of_body hbody rfl fun hbody => failsWith_or_of_body hbody rfl fun hbody =>
    completes_of_body hbody rfl

/-- Settles O32: the one check of CLTU_SIZE; CLTU_BLOCKS has none. -/
theorem cltuSizeAndBlocksResult : Obligations.CltuSizeAndBlocksResult :=
  fun s => ⟨failsWith_or_of_body (cltuSizeBody_eq s) rfl fun hbody => completes_of_body hbody rfl,
    completes_of_body (i := .cltuBlocks) rfl rfl⟩

/-- Settles O31: the four checks of the input, then the first invalid block, or the data without its fill bytes. -/
theorem cltuDecResult : Obligations.CltuDecResult := by
  intro s
  have hbody := cltuDecBody_checks s
  simp only [take_two_ne_start_iff, not_tail_iff] at hbody
  rw [inputString_length] at hbody
  refine failsWith_or_of_body hbody rfl fun hbody => failsWith_or_of_body hbody rfl fun hbody =>
    failsWith_or_of_body hbody rfl fun hbody => failsWith_or_of_body hbody rfl fun hbody => ⟨?_, ?_⟩
  · intro i hi hbad hfirst
    rw [decodeBlocks_eq_error_iff.mpr ⟨i, hi, hbad, fun j hj => not_not.mp (hfirst j hj), rfl⟩] at hbody
    exact failsWith_of_body hbody rfl
  · intro hgood
    rw [decodeBlocks_eq_ok_iff.mpr ⟨fun i hi => not_not.mp (hgood i hi), rfl⟩] at hbody
    obtain ⟨k, hdata, hlow, hstop⟩ := stripFill_spec (argNat s 0) (unitData (inputString s) ((s.inLen.toNat - 9) / 8))
    exact ⟨_, k, hdata, hlow, hstop, failsWith_or_of_body hbody rfl fun hbody => completes_of_body hbody rfl⟩

/-- Settles O33: what comes back is the payload stripped of its own last fill bytes, down to ARG0 bytes. -/
theorem cltuRoundTrip : Obligations.CltuRoundTrip := by
  intro s p ⟨_, _, hmax⟩ hin hcap hout
  have hlen := length_cltuEncode p
  have hdec := cltuDec_cltuEncode hin hcap (by omega)
  constructor
  · intro he
    rwa [stripFill_append_replicate he.le, (stripFill_eq_self_iff _ _).mpr (.inl he.ge)] at hdec
  · intro he
    rw [stripFill_append_replicate (by omega)] at hdec
    obtain ⟨t, ht, heffect⟩ := hdec
    have hshort := length_stripFill_le (argNat s 0) p
    refine ⟨t, ht, heffect.1, ?_⟩
    rw [outputString_of_commandEffect heffect (by omega), he, stripFill_eq_self_iff, Nat.le_zero,
      List.length_eq_zero_iff]
    rfl

/-- Settles O34: each kind of byte against its check; and the payloads 01 02 and 00 00 have units that differ in
their first two data bytes only, by the two changes of 42_parity.md R133 (c). -/
theorem cltuDetectsOneChangedByte : Obligations.CltuDetectsOneChangedByte := by
  constructor
  · intro s t u k v h hstatus hparams hinLen hk hv hu
    obtain ⟨hcap, hvalid⟩ := validUnit_of_exec h hstatus
    rw [← inputString_byteAt s k hk] at hv
    rw [← inputString_length s] at hk ⊢
    have hcap : u.inLen.toNat ≤ u.params.inCap := by rwa [hparams, hinLen]
    exact ⟨failsWith_of_startChanged hcap hvalid hk hv hu, failsWith_of_tailChanged hcap hvalid hk hv hu,
      failsWith_of_blockChanged hcap hvalid hk hv hu⟩
  · refine ⟨cltuEncode [0x01, 0x02], cltuEncode [0x00, 0x00], by decide, by decide, fun j h2 h3 => ?_,
      fun s hcap hout hin => ?_⟩
    · have hset : cltuEncode [0x00, 0x00] = ((cltuEncode [0x01, 0x02]).set 2 0x00).set 3 0x00 := by decide
      rw [hset, byteAt_set_ne h3.symm, byteAt_set_ne h2.symm]
    · rcases hin with hin | hin
      · exact status_of_completes (cltuDec_cltuEncode hin hcap hout)
      · exact status_of_completes (cltuDec_cltuEncode hin hcap hout)

end Sys2Proof.Proofs
end

section
/-! PROOF. The scrambler (44_scrambler.md R180): byte `i` of the sequence is what the state after `i` bytes emits, the
states of R186 run in a cycle of 21 bytes from byte 1 on, and scrambling is an XOR with that sequence. -/

namespace Sys2Proof.Machine

/-! The sequence byte by byte (44_scrambler.md R180) -/

/-- The byte that the state `s` emits in eight steps. -/
def scrEmit (s : Byte) : Byte := (scrBits 8 0 s).1

/-- The state eight steps after `s`. -/
def scrAdvance (s : Byte) : Byte := (scrBits 8 0 s).2

theorem scrBytes_eq_map_iterate (n : Nat) (s : Byte) : scrBytes n s = (List.iterate scrAdvance s n).map scrEmit := by
  induction n generalizing s with
  | zero => rfl
  | succ n ih => rw [scrBytes, ih, List.iterate, List.map_cons, scrEmit, scrAdvance]

theorem scrSeq_length (n : Nat) : (scrSeq n).length = n := scrBytes_length n scrSeed

theorem take_scrSeq {m n : Nat} (h : m ≤ n) : (scrSeq n).take m = scrSeq m := by
  rw [scrSeq, scrSeq, scrBytes_eq_map_iterate, scrBytes_eq_map_iterate, ← List.map_take, List.take_iterate,
    Nat.min_eq_left h]

theorem byteAt_scrSeq {n i : Nat} (h : i < n) : byteAt (scrSeq n) i = scrEmit (scrAdvance^[i] scrSeed) := by
  rw [byteAt, List.getD_eq_getElem _ _ (by rwa [scrSeq_length])]
  simp [scrSeq, scrBytes_eq_map_iterate]

/-! The cycle (44_scrambler.md R186) -/

theorem scrSeq_twentyTwo : scrSeq 22 = [0xFF, 0x62, 0x39, 0xFB, 0x11, 0xCF, 0xD8, 0x8E, 0x7E, 0xC4, 0x73, 0xF6, 0x23,
    0x9F, 0xB1, 0x1C, 0xFD, 0x88, 0xE7, 0xEC, 0x47, 0x3F] := by decide

theorem scrBits_snd (n : Nat) (g s : Byte) : (scrBits n g s).2 = scrNext^[n] s := by
  induction n generalizing g s with
  | zero => rfl
  | succ n ih => rw [scrBits, ih, Function.iterate_succ_apply]

/-- The state after byte 0 lies on the cycle of 21 states, which the seed only leads to. -/
theorem scrNext_isPeriodicPt : Function.IsPeriodicPt scrNext 21 (scrAdvance scrSeed) := by decide

/-- A cycle of 21 states is one of 21 bytes, each of eight steps. -/
theorem scrAdvance_isPeriodicPt : Function.IsPeriodicPt scrAdvance 21 (scrAdvance scrSeed) := by
  have hadvance : scrAdvance = scrNext^[8] := funext (scrBits_snd 8 0)
  rw [hadvance]
  exact scrNext_isPeriodicPt.iterate 8

/-- Every byte after byte 0 is one of the 21 bytes after it. -/
theorem byteAt_scrSeq_succ {n k : Nat} (h : k + 1 < n) :
    byteAt (scrSeq n) (k + 1) = byteAt (scrSeq 22) (k % 21 + 1) := by
  rw [byteAt_scrSeq h, byteAt_scrSeq (by omega), Function.iterate_succ_apply, Function.iterate_succ_apply,
    scrAdvance_isPeriodicPt.iterate_mod_apply]

theorem byteAt_scrSeq_zero {n : Nat} (h : 0 < n) : byteAt (scrSeq n) 0 = 0xFF := by
  rw [byteAt_scrSeq h]
  decide

theorem byteAt_scrSeq_succ_ne {n k : Nat} (h : k + 1 < n) : byteAt (scrSeq n) (k + 1) ≠ 0xFF := by
  have hcycle : ∀ j < 21, byteAt (scrSeq 22) (j + 1) ≠ 0xFF := by
    rw [scrSeq_twentyTwo]
    decide
  rw [byteAt_scrSeq_succ h]
  exact hcycle _ (Nat.mod_lt _ (by decide))

/-! Scrambling a string (44_scrambler.md R180, R187) -/

theorem byteAt_scramble {x : List Byte} {i : Nat} (h : i < x.length) :
    byteAt (scramble x) i = byteAt x i ^^^ byteAt (scrSeq x.length) i := by
  have hseq : i < (scrSeq x.length).length := by rwa [scrSeq_length]
  have hscr : i < (scramble x).length := by rwa [scramble_length]
  rw [byteAt, byteAt, byteAt, List.getD_eq_getElem _ _ h, List.getD_eq_getElem _ _ hseq,
    List.getD_eq_getElem _ _ hscr]
  exact List.getElem_zipWith

/-- Both applications XOR the same sequence, since both strings have one length. -/
theorem scramble_scramble (x : List Byte) : scramble (scramble x) = x := by
  apply List.ext_getElem
  · rw [scramble_length, scramble_length]
  · intro i _ _
    simp [scramble, scrSeq_length]

/-! The operations (44_scrambler.md R181 to R184): two opcodes with one body -/

/-- The first check of the body of two operations, and what their statement says where the check passes. -/
theorem bothFail_or_of_body {i j : Instr} {s : State} {body rest : Except CmdError Writes} {c : Prop} [Decidable c]
    {code : ErrCode} {info : Word} {statusI statusJ : Word} {P : Prop}
    (hbody : body = if c then .error ⟨code, info⟩ else rest) (hi : commandBody i s = body) (hj : commandBody j s = body)
    (hsi : statusFailed i.opcode code.toByte = statusI) (hsj : statusFailed j.opcode code.toByte = statusJ)
    (hrest : body = rest → P) : if c then failsWith i s statusI info ∧ failsWith j s statusJ info else P := by
  by_cases hc : c
  · rw [if_pos hc] at hbody ⊢
    exact ⟨failsWith_of_body (hi.trans hbody) hsi, failsWith_of_body (hj.trans hbody) hsj⟩
  · rw [if_neg hc] at hbody ⊢
    exact hrest hbody

/-- After a command that wrote a string of IN_LEN bytes to IN, that is its input string. -/
theorem inputString_of_commandEffect {s t : State} {status : Word} {results : List (Fin 16 × Word)}
    {output : Option (List Byte)} {r : List Byte} (h : commandEffect s t status results output (some r))
    (hr : r.length = s.inLen.toNat) : inputString t = r := by
  obtain ⟨-, -, -, -, -, hin, -, hlen, -⟩ := h
  apply List.ext_getElem
  · rw [inputString_length, hlen, hr]
  · intro a _ ha
    simp [inputString, hin, ha]

/-- An operation with the in-place body scrambles IN where IN_LEN is legal. -/
theorem completes_of_scrInPlaceBody {i : Instr} {s : State} (hi : commandBody i s = scrInPlaceBody s)
    (hcap : s.inLen.toNat ≤ s.params.inCap) :
    completes i s (statusDone i.opcode) [] none (some (scramble (inputString s))) := by
  rw [scrInPlaceBody_eq, if_neg (Nat.not_lt.mpr hcap)] at hi
  exact completes_of_body hi rfl

end Sys2Proof.Machine
end

section
/-! PROOF. The statements of the family 44_scrambler.md, each from the lemmas above. -/

open Sys2Proof Sys2Proof.Machine

namespace Sys2Proof.Proofs

/-- Settles O35: the two checks of the one body, then the result; the string byte by byte. -/
theorem copyingScramblersResult : Obligations.CopyingScramblersResult := by
  refine ⟨fun s => ?_, fun x => ⟨scramble_length x, fun i hi => byteAt_scramble hi⟩⟩
  have hbody := scrCopyBody_eq s
  rw [BitVec.ofNat_toNat, BitVec.setWidth_eq] at hbody
  exact bothFail_or_of_body hbody rfl rfl rfl rfl fun hbody => bothFail_or_of_body hbody rfl rfl rfl rfl fun hbody =>
    ⟨completes_of_body (i := .scrRand) hbody rfl, completes_of_body (i := .scrDerand) hbody rfl⟩

/-- Settles O36: the check of IN_LEN, then the result; the string byte by byte, for IN_LEN bytes. -/
theorem inPlaceScramblersResult : Obligations.InPlaceScramblersResult := by
  refine fun s => ⟨bothFail_or_of_body (scrInPlaceBody_eq s) rfl rfl rfl rfl fun hbody =>
    ⟨completes_of_body (i := .scrRandIp) hbody rfl, completes_of_body (i := .scrDerandIp) hbody rfl⟩,
    by rw [scramble_length, inputString_length], fun i hi => ?_⟩
  rw [byteAt_scramble (by rwa [inputString_length]), inputString_byteAt s i hi, inputString_length]

/-- Settles O37: the check of the room in OUT, then the result. -/
theorem scrSeqResult : Obligations.ScrSeqResult := by
  refine ⟨fun s => ?_, fun m n h => take_scrSeq h⟩
  have hinfo : BitVec.ofNat 32 (argNat s 0) = s.getArg 0 := by rw [argNat, BitVec.ofNat_toNat, BitVec.setWidth_eq]
  have hbody : commandBody .scrSeq s = _ := scrSeqBody_eq s
  rw [hinfo] at hbody
  exact failsWith_or_of_body hbody rfl fun hbody => completes_of_body hbody rfl

/-- Settles O38: the state after byte 0 lies on the cycle of 21 bytes, and none of these is 0xFF. -/
theorem scramblerSequencePeriod : Obligations.ScramblerSequencePeriod := by
  refine ⟨scrSeq_twentyTwo, scrSeq_length, fun n i hi hn => ?_, fun n i hn => ?_⟩
  · obtain ⟨k, rfl⟩ := Nat.exists_eq_add_of_le' hi
    rw [Nat.add_right_comm, byteAt_scrSeq_succ (n := n) (by omega), byteAt_scrSeq_succ (n := n) (by omega),
      Nat.add_mod_right]
  · cases i with
    | zero => exact iff_of_true (byteAt_scrSeq_zero hn) rfl
    | succ k => exact iff_of_false (byteAt_scrSeq_succ_ne hn) (Nat.succ_ne_zero k)

/-- Settles O39: the second operation finds the scrambled string as its input string, under the same IN_LEN. -/
theorem scrambleTwiceIsIdentity : Obligations.ScrambleTwiceIsIdentity := by
  refine ⟨scramble_scramble, fun s hcap => ?_⟩
  obtain ⟨t, ht, heffect⟩ := completes_of_scrInPlaceBody (i := .scrRandIp) rfl hcap
  have hinput : inputString t = scramble (inputString s) :=
    inputString_of_commandEffect heffect (by rw [scramble_length, inputString_length])
  obtain ⟨-, -, -, -, -, hin, -, hlen, -, hparams, -⟩ := heffect
  obtain ⟨u, hu, -, -, -, -, -, hback, -⟩ :=
    completes_of_scrInPlaceBody (i := .scrDerandIp) (s := t) rfl (by rwa [hlen, hparams])
  refine ⟨t, u, ht, hu, fun a => ?_⟩
  simp only [hinput, scramble_scramble] at hback
  rw [hback]
  by_cases ha : a < s.inLen.toNat
  · simp [inputString, ha]
  · simp [inputString, hin, scramble_length, Nat.not_lt.mp ha]

end Sys2Proof.Proofs
end

section
/-! PROOF. The frame header (45_frame.md R200, R209) by the values of its bytes: what each field function reads, and
that it reads back what `hdr` wrote. And a bound check that tells the rest of the body its bound. -/

namespace Sys2Proof.Machine

/-! Checks -/

/-- A bound check, and what the statement of its operation says of the operands within the bound. -/
theorem failsWith_or_of_bound {i : Instr} {s : State} {a b : Nat} {code : ErrCode} {info : Word}
    {rest : Except CmdError Writes} {status : Word} {P : Prop}
    (hbody : commandBody i s = if b < a then .error ⟨code, info⟩ else rest)
    (hs : statusFailed i.opcode code.toByte = status) (hrest : a ≤ b → commandBody i s = rest → P) :
    if b < a then failsWith i s status info else P := by
  have h := failsWith_or_of_body hbody hs fun hbody hle => hrest hle hbody
  split
  · next hlt => rwa [if_pos hlt] at h
  · next hle =>
    rw [if_neg hle] at h
    exact h (Nat.not_lt.mp hle)

/-- A body that gives writes has passed its bound check. -/
theorem check_eq_ok_iff {a b : Nat} {e : CmdError} {rest : Except CmdError Writes} {w : Writes} :
    (if b < a then .error e else rest) = .ok w ↔ a ≤ b ∧ rest = .ok w := by
  split
  · next hlt => exact iff_of_false nofun fun h => Nat.not_le.mpr hlt h.1
  · next hle => exact (and_iff_right (Nat.not_lt.mp hle)).symm

/-- The state after a successful operation is its body's writes, committed. -/
theorem complete_of_doneFlag {i : Instr} {s t : State} (h : exec i s = .next t) (hdone : doneFlag t.status = true) :
    ∃ w, commandBody i s = .ok w ∧ t = s.complete i.opcode w := by
  rcases exec_next_cases i s t h with hok | ⟨e, -, rfl⟩
  · exact hok
  · rw [takeError_status, doneFlag_statusFailed] at hdone
    cases hdone

/-! The fields of a header (45_frame.md R200) -/

section
variable (h : List Byte)

theorem headerVersion_eq :
    headerVersion h = BitVec.ofNat 32 (((byteAt h 0).toNat * 256 + (byteAt h 1).toNat) / 16384) :=
  (BitVec.toNat_eq_nat.mp (headerVersion_toNat h)).2

theorem headerScid_eq :
    headerScid h = BitVec.ofNat 32 (((byteAt h 0).toNat * 256 + (byteAt h 1).toNat) / 16 % 1024) :=
  (BitVec.toNat_eq_nat.mp (headerScid_toNat h)).2

theorem headerVcid_eq :
    headerVcid h = BitVec.ofNat 32 (((byteAt h 0).toNat * 256 + (byteAt h 1).toNat) / 2 % 8) :=
  (BitVec.toNat_eq_nat.mp (headerVcid_toNat h)).2

theorem headerOcf_eq : headerOcf h = BitVec.ofNat 32 (((byteAt h 0).toNat * 256 + (byteAt h 1).toNat) % 2) :=
  (BitVec.toNat_eq_nat.mp (headerOcf_toNat h)).2

theorem headerMc_eq : headerMc h = BitVec.ofNat 32 (byteAt h 2).toNat := (BitVec.ofNat_toNat 32 _).symm

theorem headerVc_eq : headerVc h = BitVec.ofNat 32 (byteAt h 3).toNat := (BitVec.ofNat_toNat 32 _).symm

theorem headerCount_eq : headerCount h = BitVec.ofNat 32 ((byteAt h 2).toNat * 256 + (byteAt h 3).toNat) :=
  (BitVec.toNat_eq_nat.mp (headerCount_toNat h)).2

theorem headerDfs_eq : headerDfs h = BitVec.ofNat 32 ((byteAt h 4).toNat * 256 + (byteAt h 5).toNat) :=
  (BitVec.toNat_eq_nat.mp (headerDfs_toNat h)).2

/-- The version is the two top bits of byte 0. -/
theorem headerVersion_eq_zero_iff : headerVersion h = 0 ↔ (byteAt h 0).toNat < 64 := by
  have hlow := (byteAt h 1).isLt
  rw [BitVec.toNat_eq, headerVersion_toNat, show (0 : Word).toNat = 0 from rfl]
  omega

theorem headerIsTelemetry_eq : headerIsTelemetry h = if 128 ≤ (byteAt h 4).toNat then 0 else 1 := by
  rw [headerIsTelemetry, headerIsCommand_eq]
  split <;> rfl

/-- Bit 15 of the data-field status is bit 7 of its high byte. -/
theorem commandBit_cases (x y : Byte) :
    (128 ≤ x.toNat ∧ (x.toNat * 256 + y.toNat) / 32768 = 1) ∨
    (¬128 ≤ x.toNat ∧ (x.toNat * 256 + y.toNat) / 32768 = 0) := by
  have hx := x.isLt
  have hy := y.isLt
  omega

theorem headerIsCommand_eq_dfs :
    headerIsCommand h = BitVec.ofNat 32 (((byteAt h 4).toNat * 256 + (byteAt h 5).toNat) / 32768) := by
  rw [headerIsCommand_eq]
  rcases commandBit_cases (byteAt h 4) (byteAt h 5) with ⟨hbit, hdfs⟩ | ⟨hbit, hdfs⟩ <;> rw [hdfs]
  · exact if_pos hbit
  · exact if_neg hbit

theorem headerIsTelemetry_eq_dfs :
    headerIsTelemetry h = BitVec.ofNat 32 (1 - ((byteAt h 4).toNat * 256 + (byteAt h 5).toNat) / 32768) := by
  rw [headerIsTelemetry_eq]
  rcases commandBit_cases (byteAt h 4) (byteAt h 5) with ⟨hbit, hdfs⟩ | ⟨hbit, hdfs⟩ <;> rw [hdfs]
  · exact if_pos hbit
  · exact if_neg hbit

end

/-! The field functions read back what `hdr` wrote (45_frame.md R209) -/

/-- The ranges of the operands of `hdr` (45_frame.md R200). -/
structure HeaderRanges (scid vcid count dfs ocf : Word) : Prop where
  scid : scid.toNat ≤ 1023
  vcid : vcid.toNat ≤ 7
  count : count.toNat ≤ 65535
  dfs : dfs.toNat ≤ 65535
  ocf : ocf.toNat ≤ 1

section
variable {scid vcid count dfs ocf : Word} (hr : HeaderRanges scid vcid count dfs ocf)
include hr

theorem header_bytes : header scid vcid count dfs ocf =
    [BitVec.ofNat 8 ((scid.toNat * 16 + vcid.toNat * 2 + ocf.toNat) / 256),
      BitVec.ofNat 8 (scid.toNat * 16 + vcid.toNat * 2 + ocf.toNat), BitVec.ofNat 8 (count.toNat / 256),
      BitVec.ofNat 8 count.toNat, BitVec.ofNat 8 (dfs.toNat / 256), BitVec.ofNat 8 dfs.toNat] :=
  header_eq _ _ _ _ _ hr.scid hr.vcid hr.count hr.dfs hr.ocf

theorem header_word0 :
    (byteAt (header scid vcid count dfs ocf) 0).toNat * 256 + (byteAt (header scid vcid count dfs ocf) 1).toNat =
      scid.toNat * 16 + vcid.toNat * 2 + ocf.toNat := by
  have hscid := hr.scid
  have hvcid := hr.vcid
  have hocf := hr.ocf
  rw [header_bytes hr]
  simp only [byteAt, List.getD_cons_zero, List.getD_cons_succ, BitVec.toNat_ofNat]
  omega

theorem header_mc : (byteAt (header scid vcid count dfs ocf) 2).toNat = count.toNat / 256 := by
  have hcount := hr.count
  rw [header_bytes hr]
  exact Nat.mod_eq_of_lt (by omega)

theorem header_vc : (byteAt (header scid vcid count dfs ocf) 3).toNat = count.toNat % 256 := by
  rw [header_bytes hr]
  rfl

theorem header_word1 :
    (byteAt (header scid vcid count dfs ocf) 4).toNat * 256 + (byteAt (header scid vcid count dfs ocf) 5).toNat =
      dfs.toNat := by
  have hdfs := hr.dfs
  rw [header_bytes hr]
  simp only [byteAt, List.getD_cons_zero, List.getD_cons_succ, BitVec.toNat_ofNat]
  omega

theorem headerVersion_header : headerVersion (header scid vcid count dfs ocf) = 0 := by
  have hscid := hr.scid
  have hvcid := hr.vcid
  have hocf := hr.ocf
  have hword := header_word0 hr
  rw [headerVersion_eq_zero_iff]
  omega

theorem headerScid_header : headerScid (header scid vcid count dfs ocf) = scid := by
  have hscid := hr.scid
  have hvcid := hr.vcid
  have hocf := hr.ocf
  rw [BitVec.toNat_eq, headerScid_toNat, header_word0 hr]
  omega

theorem headerVcid_header : headerVcid (header scid vcid count dfs ocf) = vcid := by
  have hvcid := hr.vcid
  have hocf := hr.ocf
  rw [BitVec.toNat_eq, headerVcid_toNat, header_word0 hr]
  omega

theorem headerOcf_header : headerOcf (header scid vcid count dfs ocf) = ocf := by
  have hocf := hr.ocf
  rw [BitVec.toNat_eq, headerOcf_toNat, header_word0 hr]
  omega

theorem headerMc_header : headerMc (header scid vcid count dfs ocf) = BitVec.ofNat 32 (count.toNat / 256) := by
  rw [headerMc_eq, header_mc hr]

theorem headerVc_header : headerVc (header scid vcid count dfs ocf) = BitVec.ofNat 32 (count.toNat % 256) := by
  rw [headerVc_eq, header_vc hr]

theorem headerDfs_header : headerDfs (header scid vcid count dfs ocf) = dfs := by
  rw [BitVec.toNat_eq, headerDfs_toNat, header_word1 hr]

theorem headerCount_header : headerCount (header scid vcid count dfs ocf) = count := by
  rw [BitVec.toNat_eq, headerCount_toNat, header_mc hr, header_vc hr]
  omega

end

end Sys2Proof.Machine
end

section
/-! PROOF. The builders (45_frame.md R208, R210 to R212): a successful one leaves in OUT a string that begins with the
header of its operands, and a frame ends in its FECF. -/

namespace Sys2Proof.Machine

/-! The length of a frame (45_frame.md R212) -/

theorem length_ocfSlot {o : Nat} (ho : o ≤ 1) (v : Word) : (if o = 1 then bytes32 v else []).length = 4 * o := by
  split
  · next h => rw [h]; rfl
  · next h => rw [show o = 0 by omega]; rfl

theorem length_header_append_range (scid vcid count dfs ocf : Word) (d : Nat) (g : Nat → Byte) :
    (header scid vcid count dfs ocf ++ (List.range d).map g).length = 6 + d := by
  rw [List.length_append, header_length, List.length_map, List.length_range]

/-! What a builder leaves in OUT -/

/-- The OCF flag that a builder writes: TC_BUILD writes 0 and does not read ARG4 (45_frame.md R211). -/
def ocfOperand (i : Instr) (s : State) : Word := if i = .tcBuild then 0 else s.getArg 4

/-- The header that a builder writes. -/
def builtHeader (i : Instr) (s : State) : List Byte :=
  header (s.getArg 0) (s.getArg 1) (s.getArg 2) (s.getArg 3) (ocfOperand i s)

/-- The operands of the builder `i` at `s` are in the ranges of its header. -/
def OperandsInRange (i : Instr) (s : State) : Prop :=
  HeaderRanges (s.getArg 0) (s.getArg 1) (s.getArg 2) (s.getArg 3) (ocfOperand i s)

section
variable {s : State} {w : Writes}

theorem output_of_fhBuild (h : commandBody .fhBuild s = .ok w) :
    OperandsInRange .fhBuild s ∧ w.output = some (builtHeader .fhBuild s) := by
  simp only [commandBody, fhBuildBody_eq, check_eq_ok_iff] at h
  obtain ⟨hscid, hvcid, hcount, hdfs, hocf, -, hw⟩ := h
  cases hw
  exact ⟨⟨hscid, hvcid, hcount, hdfs, hocf⟩, rfl⟩

theorem output_of_tmBuild (h : commandBody .tmBuild s = .ok w) :
    OperandsInRange .tmBuild s ∧ ∃ data, w.output = some (withFecf (builtHeader .tmBuild s ++ data)) := by
  simp only [commandBody, tmBuildBody_eq, check_eq_ok_iff] at h
  obtain ⟨-, hscid, hvcid, hcount, hdfs, hocf, -, -, hw⟩ := h
  rw [frameBody_eq, List.append_assoc] at hw
  cases hw
  exact ⟨⟨hscid, hvcid, hcount, hdfs, hocf⟩, _, rfl⟩

theorem output_of_tcBuild (h : commandBody .tcBuild s = .ok w) :
    OperandsInRange .tcBuild s ∧ ∃ data, w.output = some (withFecf (builtHeader .tcBuild s ++ data)) := by
  simp only [commandBody, tcBuildBody_eq, check_eq_ok_iff] at h
  obtain ⟨-, hscid, hvcid, hcount, hdfs, -, -, hw⟩ := h
  rw [frameBody_eq, List.append_assoc] at hw
  cases hw
  exact ⟨⟨hscid, hvcid, hcount, hdfs, Nat.zero_le 1⟩, _, rfl⟩

/-- Every builder's output begins with its header. -/
theorem output_of_builder {i : Instr} (hi : i = .fhBuild ∨ i = .tmBuild ∨ i = .tcBuild)
    (h : commandBody i s = .ok w) :
    OperandsInRange i s ∧ ∃ rest, w.output = some (builtHeader i s ++ rest) := by
  rcases hi with rfl | rfl | rfl
  · obtain ⟨hr, hout⟩ := output_of_fhBuild h
    exact ⟨hr, [], by rw [hout, List.append_nil]⟩
  · obtain ⟨hr, data, hout⟩ := output_of_tmBuild h
    exact ⟨hr, _, by rw [hout, withFecf, List.append_assoc]⟩
  · obtain ⟨hr, data, hout⟩ := output_of_tcBuild h
    exact ⟨hr, _, by rw [hout, withFecf, List.append_assoc]⟩

/-- Every frame builder's output ends in its FECF. -/
theorem output_of_frameBuilder {i : Instr} (hi : i = .tmBuild ∨ i = .tcBuild) (h : commandBody i s = .ok w) :
    ∃ f, w.output = some (withFecf f) := by
  rcases hi with rfl | rfl
  · obtain ⟨-, data, hout⟩ := output_of_tmBuild h
    exact ⟨_, hout⟩
  · obtain ⟨-, data, hout⟩ := output_of_tcBuild h
    exact ⟨_, hout⟩

end

/-- The first six bytes of OUT after a builder are its header. -/
theorem outByte_of_builder {i : Instr} {s t : State} (hi : i = .fhBuild ∨ i = .tmBuild ∨ i = .tcBuild)
    (h : exec i s = .next t) (hdone : doneFlag t.status = true) :
    OperandsInRange i s ∧ ∀ a < 6, t.outByte a = byteAt (builtHeader i s) a := by
  obtain ⟨w, hw, rfl⟩ := complete_of_doneFlag h hdone
  obtain ⟨hr, rest, hout⟩ := output_of_builder hi hw
  refine ⟨hr, fun a ha => ?_⟩
  have hlen : a < (builtHeader i s).length := ha
  rw [complete_outByte, commitWrites_outByte, hout]
  simp [List.getElem?_append_left, byteAt, hlen]

/-- With legal capacities, the output of a frame builder is a string with its FECF. -/
theorem outputString_of_frameBuilder {i : Instr} {s t : State} (hp : s.params.wf) (hi : i = .tmBuild ∨ i = .tcBuild)
    (h : exec i s = .next t) (hdone : doneFlag t.status = true) : ∃ f, outputString t = withFecf f := by
  obtain ⟨w, hw, rfl⟩ := complete_of_doneFlag h hdone
  obtain ⟨f, hout⟩ := output_of_frameBuilder hi hw
  have heffect := complete_effect s i.opcode w
  rw [hout] at heffect
  refine ⟨f, outputString_of_commandEffect heffect ?_⟩
  obtain ⟨-, -, hmax⟩ := hp
  rcases commandBody_output i s w hw with hn | ⟨-, r, hr, hlen⟩
  · exact absurd (hout.symm.trans hn) nofun
  · obtain rfl := Option.some.inj (hout.symm.trans hr)
    omega

/-! The FECF (45_frame.md R214) -/

theorem length_withFecf (f : List Byte) : (withFecf f).length = f.length + 2 := List.length_append

theorem crc16_withFecf (f : List Byte) : crc16 (withFecf f) = 0 := Proofs.crcResidueIsZero f

end Sys2Proof.Machine
end

section
/-! PROOF. The statements of the family 45_frame.md, each from the lemmas above. -/

open Sys2Proof Sys2Proof.Machine

namespace Sys2Proof.Proofs

/-- Settles O40: the two checks, then each field by the bytes it reads. -/
theorem fhParseResult : Obligations.FhParseResult := by
  intro s
  refine failsWith_or_of_bound (fhParseBody_eq s) rfl fun _ hbody => failsWith_or_of_bound hbody rfl
    fun hlen hbody => ?_
  have hbyte : ∀ a < 6, byteAt (inputString s) a = s.inByte a := fun a ha => inputString_byteAt s a (by omega)
  simp only [headerVersion_eq, headerScid_eq, headerVcid_eq, headerOcf_eq, headerMc_eq, headerVc_eq, headerDfs_eq,
    headerCount_eq, headerIsCommand_eq_dfs, headerIsTelemetry_eq_dfs, hbyte, Nat.reduceLT] at hbody
  exact completes_of_body hbody rfl

/-- Settles O41: the two checks of each operation, then its field. -/
theorem fieldExtractorsResult : Obligations.FieldExtractorsResult := by
  intro s
  rw [← apply_ite₂ And, ← apply_ite₂ And]
  refine ⟨failsWith_or_of_bound (fhScidBody_eq s) rfl fun _ hbody => failsWith_or_of_bound hbody rfl
      fun hlen hbody => ?_, failsWith_or_of_bound (fhVcidBody_eq s) rfl fun _ hbody => failsWith_or_of_bound hbody rfl
      fun hlen hbody => ?_, failsWith_or_of_bound (fhCountBody_eq s) rfl fun _ hbody => failsWith_or_of_bound hbody rfl
      fun hlen hbody => ?_⟩
  · rw [headerScid_eq, inputString_byteAt s 0 (by omega), inputString_byteAt s 1 hlen] at hbody
    exact completes_of_body hbody rfl
  · rw [headerVcid_eq, inputString_byteAt s 0 (by omega), inputString_byteAt s 1 hlen] at hbody
    exact completes_of_body hbody rfl
  · rw [headerCount_eq, inputString_byteAt s 2 (by omega), inputString_byteAt s 3 hlen] at hbody
    exact completes_of_body hbody rfl

/-- Settles O42: the check of IN_LEN, then the two conditions as one proposition. -/
theorem fhValidResult : Obligations.FhValidResult := by
  refine fun s => failsWith_or_of_body (fhValidBody_eq s) rfl fun hbody => ?_
  have hvalid : (decide (6 ≤ s.inLen.toNat) && headerVersion (inputString s) == 0) =
      decide (6 ≤ s.inLen.toNat ∧ (s.inByte 0).toNat < 64) := by
    rw [Bool.eq_iff_iff, Bool.and_eq_true, decide_eq_true_iff, decide_eq_true_iff, beq_iff_eq,
      headerVersion_eq_zero_iff]
    exact and_congr_right fun hlen => by rw [inputString_byteAt s 0 (by omega)]
  rw [hvalid, boolWord_decide] at hbody
  exact completes_of_body hbody rfl

/-- Settles O43: the same two checks for both operations, then bit 7 of byte 4 and its complement. -/
theorem commandOrTelemetryResult : Obligations.CommandOrTelemetryResult := by
  intro s
  rw [← apply_ite₂ And, ← apply_ite₂ And]
  refine ⟨failsWith_or_of_bound (fhIsCmdBody_eq s) rfl fun _ hbody => failsWith_or_of_bound hbody rfl
      fun hlen hbody => ?_, failsWith_or_of_bound (fhIsTmBody_eq s) rfl fun _ hbody => failsWith_or_of_bound hbody rfl
      fun hlen hbody => ?_⟩
  · rw [headerIsCommand_eq, inputString_byteAt s 4 (by omega)] at hbody
    exact completes_of_body hbody rfl
  · rw [headerIsTelemetry_eq, inputString_byteAt s 4 (by omega)] at hbody
    exact completes_of_body hbody rfl

/-- Settles O44: the ranges, the room in OUT, then the header by its bytes. -/
theorem fhBuildResult : Obligations.FhBuildResult := by
  refine fun s => failsWith_or_of_bound (fhBuildBody_eq s) rfl fun hscid hbody =>
    failsWith_or_of_bound hbody rfl fun hvcid hbody => failsWith_or_of_bound hbody rfl fun hcount hbody =>
    failsWith_or_of_bound hbody rfl fun hdfs hbody => failsWith_or_of_bound hbody rfl fun hocf hbody =>
    failsWith_or_of_bound hbody rfl fun _ hbody => ?_
  rw [header_bytes ⟨hscid, hvcid, hcount, hdfs, hocf⟩] at hbody
  exact completes_of_body hbody rfl

/-- Settles O45: the checks in order, then the frame, which has the frame size. -/
theorem tmBuildResult : Obligations.TmBuildResult := by
  refine fun s => failsWith_or_of_bound (tmBuildBody_eq s) rfl fun _ hbody =>
    failsWith_or_of_bound hbody rfl fun _ hbody => failsWith_or_of_bound hbody rfl fun _ hbody =>
    failsWith_or_of_bound hbody rfl fun _ hbody => failsWith_or_of_bound hbody rfl fun _ hbody =>
    failsWith_or_of_bound hbody rfl fun hocf hbody => failsWith_or_of_bound hbody rfl fun hsize hbody =>
    failsWith_or_of_bound hbody rfl fun _ hbody => ?_
  rw [frameBody_eq] at hbody
  refine ⟨completes_of_body hbody rfl, ?_⟩
  have hslot := length_ocfSlot hocf (s.getArg 5)
  rw [bytes32] at hslot
  rw [List.length_append, length_header_append_range, hslot]
  omega

/-- Settles O46: the checks in order, then the frame, which has the frame size. -/
theorem tcBuildResult : Obligations.TcBuildResult := by
  refine fun s => failsWith_or_of_bound (tcBuildBody_eq s) rfl fun _ hbody =>
    failsWith_or_of_bound hbody rfl fun _ hbody => failsWith_or_of_bound hbody rfl fun _ hbody =>
    failsWith_or_of_bound hbody rfl fun _ hbody => failsWith_or_of_bound hbody rfl fun _ hbody =>
    failsWith_or_of_bound hbody rfl fun hsize hbody => failsWith_or_of_bound hbody rfl fun _ hbody => ?_
  rw [frameBody_eq, List.append_nil] at hbody
  refine ⟨completes_of_body hbody rfl, ?_⟩
  rw [length_header_append_range]
  omega

/-- Settles O47: FH_PARSE's fields by their bytes, which are the bytes of the built header. -/
theorem headerRoundTrip : Obligations.HeaderRoundTrip := by
  intro i s t u hi h hdone hcap hlen hcopy
  obtain ⟨hr, hout⟩ := outByte_of_builder hi h hdone
  have hbyte : ∀ a < 6, u.inByte a = byteAt (builtHeader i s) a := fun a ha => (hcopy a ha).trans (hout a ha)
  have hparse := fhParseResult u
  simp only [if_neg (Nat.not_lt.mpr hcap), if_neg (Nat.not_lt.mpr hlen), hbyte, Nat.reduceLT, ← headerVersion_eq,
    ← headerScid_eq, ← headerVcid_eq, ← headerOcf_eq, ← headerMc_eq, ← headerVc_eq, ← headerDfs_eq,
    ← headerCount_eq] at hparse
  obtain ⟨v, hv, hstatus, -, hres, -⟩ := hparse
  exact ⟨v, hv, hstatus, (hres 0).trans (headerVersion_header hr), (hres 1).trans (headerScid_header hr),
    (hres 2).trans (headerVcid_header hr), (hres 3).trans (headerOcf_header hr), (hres 4).trans (headerMc_header hr),
    (hres 5).trans (headerVc_header hr), (hres 6).trans (headerDfs_header hr), (hres 7).trans (headerCount_header hr)⟩

/-- Settles O48: the output is a string with its FECF, whose residue is zero; and that is what CRC_VERIFY_APP checks. -/
theorem fecfLaw : Obligations.FecfLaw := by
  intro i s t hp hi h hdone r
  obtain ⟨f, hf⟩ := outputString_of_frameBuilder hp hi h hdone
  have hr : r = withFecf f := hf
  have hlen : 2 ≤ r.length := by rw [hr, length_withFecf]; omega
  have hzero : crc16 r = 0 := by rw [hr, crc16_withFecf]
  have hlast := (crc16_take_eq_last_two_iff hlen).mpr hzero
  refine ⟨hlen, hlast, hzero, fun u hcap hu => ?_⟩
  have hn : u.inLen.toNat = r.length := by rw [← inputString_length, hu]
  obtain ⟨hverify, -⟩ := crcVerifyAppResult u
  rw [if_neg (by omega), if_neg (by omega), hu, hn, if_pos hlast] at hverify
  obtain ⟨v, hv, hstatus, -, hres, -⟩ := hverify
  exact ⟨v, hv, hstatus, hres 1⟩

end Sys2Proof.Proofs
end

section
/-! PROOF. The CLCW word (46_clcw.md R240, R245) as a number: fields in their ranges, packed from the top down, add up,
and each is read back from the sum; and the range check of CLCW_ENC_FULL, which raises for the first field out of
range. -/

namespace Sys2Proof.Machine

/-! Values in bit fields (46_clcw.md R240) -/

/-- Fields, by lowest bit and width, listed from the top down: each ends below the lowest bits of those before it. -/
def Descending (fields : List (Nat × Nat)) : Prop := fields.Pairwise fun f g => g.1 + g.2 ≤ f.1

/-- Every value fits the width of its field. -/
def FitFields (values : List Word) (fields : List (Nat × Nat)) : Prop :=
  ∀ p ∈ values.zip fields, p.1.toNat < 2 ^ p.2.2

/-- The values, each at the place of its field, as a number. -/
def fieldSum (values : List Word) (fields : List (Nat × Nat)) : Nat :=
  (List.zipWith (fun (v : Word) (f : Nat × Nat) => v.toNat * 2 ^ f.1) values fields).sum

theorem fieldSum_cons (v : Word) (values : List Word) (f : Nat × Nat) (fields : List (Nat × Nat)) :
    fieldSum (v :: values) (f :: fields) = v.toNat * 2 ^ f.1 + fieldSum values fields := rfl

theorem fitFields_cons {v : Word} {values : List Word} {f : Nat × Nat} {fields : List (Nat × Nat)} :
    FitFields (v :: values) (f :: fields) ↔ v.toNat < 2 ^ f.2 ∧ FitFields values fields := List.forall_mem_cons

theorem mul_two_pow_add_lt {v rest : Nat} {f : Nat × Nat} {top : Nat} (hv : v < 2 ^ f.2) (hrest : rest < 2 ^ f.1)
    (htop : f.1 + f.2 ≤ top) : v * 2 ^ f.1 + rest < 2 ^ top := by
  calc v * 2 ^ f.1 + rest < v * 2 ^ f.1 + 2 ^ f.1 := Nat.add_lt_add_left hrest _
    _ = (v + 1) * 2 ^ f.1 := (Nat.succ_mul _ _).symm
    _ ≤ 2 ^ f.2 * 2 ^ f.1 := Nat.mul_le_mul_right _ hv
    _ = 2 ^ (f.1 + f.2) := by rw [Nat.pow_add, Nat.mul_comm]
    _ ≤ 2 ^ top := Nat.pow_le_pow_right (by decide) htop

theorem fieldSum_lt {f : Nat × Nat} {fields : List (Nat × Nat)} {values : List Word}
    (hfields : Descending (f :: fields)) (hfit : FitFields values fields) : fieldSum values fields < 2 ^ f.1 := by
  induction fields generalizing f values with
  | nil => simp [fieldSum]
  | cons g fields ih =>
    cases values with
    | nil => simp [fieldSum]
    | cons v values =>
      obtain ⟨hbelow, hrest⟩ := List.pairwise_cons.mp hfields
      obtain ⟨hv, hfit⟩ := fitFields_cons.mp hfit
      exact mul_two_pow_add_lt hv (ih hrest hfit) (hbelow g List.mem_cons_self)

/-- Each value is read back from the sum at the place of its field. -/
theorem fieldSum_div_mod {fields : List (Nat × Nat)} {values : List Word} (hfields : Descending fields)
    (hfit : FitFields values fields) {p : Word × (Nat × Nat)} (hp : p ∈ values.zip fields) :
    fieldSum values fields / 2 ^ p.2.1 % 2 ^ p.2.2 = p.1.toNat := by
  induction fields generalizing values with
  | nil => simp at hp
  | cons g fields ih =>
    cases values with
    | nil => cases hp
    | cons v values =>
      obtain ⟨hbelow, hrest⟩ := List.pairwise_cons.mp hfields
      obtain ⟨hv, hfit⟩ := fitFields_cons.mp hfit
      rw [fieldSum_cons]
      rcases List.mem_cons.mp hp with rfl | hp
      · rw [Nat.mul_comm, Nat.mul_add_div (Nat.two_pow_pos _), Nat.div_eq_of_lt (fieldSum_lt hfields hfit),
          Nat.add_zero, Nat.mod_eq_of_lt hv]
      · obtain ⟨d, hd⟩ := Nat.exists_eq_add_of_le (hbelow _ (List.of_mem_zip hp).2)
        have habove : v.toNat * 2 ^ g.1 = 2 ^ p.2.1 * (2 ^ p.2.2 * (2 ^ d * v.toNat)) := by
          rw [hd, Nat.pow_add, Nat.pow_add]
          ac_rfl
        rw [habove, Nat.mul_add_div (Nat.two_pow_pos _), Nat.mul_add_mod, ih hrest hfit hp]

/-! Packing (46_clcw.md R245) -/

theorem ofNat_eq_of_eq_toNat {w : Word} {n : Nat} (h : n = w.toNat) : BitVec.ofNat 32 n = w :=
  h ▸ (BitVec.ofNat_toNat 32 w).trans w.setWidth_eq

theorem shiftLeft_toNat_of_lt {v : Word} {n : Nat} (h : v.toNat * 2 ^ n < 2 ^ 32) :
    (v <<< n).toNat = v.toNat * 2 ^ n := by
  rw [BitVec.toNat_shiftLeft, Nat.shiftLeft_eq, Nat.mod_eq_of_lt h]

/-- A value shifted to its field, below all the bits of a word, is an addend. -/
theorem or_shiftLeft_toNat {acc v : Word} {f : Nat × Nat} {top : Nat} (hacc : 2 ^ top ∣ acc.toNat)
    (hf : f.1 + f.2 ≤ top) (htop : top ≤ 32) (hv : v.toNat < 2 ^ f.2) :
    (acc ||| v <<< f.1).toNat = acc.toNat + v.toNat * 2 ^ f.1 := by
  have hlt : v.toNat * 2 ^ f.1 < 2 ^ top := mul_two_pow_add_lt hv (Nat.two_pow_pos _) hf
  obtain ⟨a, ha⟩ := hacc
  rw [BitVec.toNat_or, shiftLeft_toNat_of_lt (hlt.trans_le (Nat.pow_le_pow_right (by decide) htop)), ha, Nat.mul_comm,
    or_eq_add _ _ _ hlt]

/-- Values that fit, shifted into descending fields below the bits of a word, add up to their sum. -/
theorem foldl_or_shiftLeft_toNat {f : Nat × Nat} {fields : List (Nat × Nat)} {values : List Word} {acc : Word}
    (hfields : Descending (f :: fields)) (hfit : FitFields values fields) (hf : f.1 ≤ 32) (hacc : 2 ^ f.1 ∣ acc.toNat) :
    ((List.zipWith (fun (v : Word) (g : Nat × Nat) => v <<< g.1) values fields).foldl (· ||| ·) acc).toNat =
      acc.toNat + fieldSum values fields := by
  induction fields generalizing f values acc with
  | nil => simp [fieldSum]
  | cons g fields ih =>
    cases values with
    | nil => simp [fieldSum]
    | cons v values =>
      obtain ⟨hbelow, hrest⟩ := List.pairwise_cons.mp hfields
      obtain ⟨hv, hfit⟩ := fitFields_cons.mp hfit
      have hg := hbelow g List.mem_cons_self
      have hadd := or_shiftLeft_toNat hacc hg hf hv
      have hdvd : 2 ^ g.1 ∣ (acc ||| v <<< g.1).toNat :=
        hadd ▸ ((Nat.pow_dvd_pow 2 (by omega)).trans hacc).add (Nat.dvd_mul_left _ _)
      rw [List.zipWith_cons_cons, List.foldl_cons, ih hrest hfit (by omega) hdvd, hadd, fieldSum_cons, Nat.add_assoc]

theorem descending_clcwFields : Descending ((32, 0) :: clcwFields) := by
  unfold Descending
  decide

theorem clcwPack_toNat {values : List Word} (h : FitFields values clcwFields) :
    (clcwPack values).toNat = fieldSum values clcwFields :=
  (foldl_or_shiftLeft_toNat descending_clcwFields h le_rfl (Nat.dvd_zero _)).trans (Nat.zero_add _)

/-- Each field function reads back what `clcw_pack` wrote. -/
theorem clcwField_clcwPack {values : List Word} (h : FitFields values clcwFields) {p : Word × (Nat × Nat)}
    (hp : p ∈ values.zip clcwFields) : clcwField (clcwPack values) p.2 = p.1 := by
  rw [clcwField_eq, clcwPack_toNat h]
  exact ofNat_eq_of_eq_toNat (fieldSum_div_mod (List.pairwise_cons.mp descending_clcwFields).2 h hp)

/-- The word of CLCW_ENC: VCID above the report value (46_clcw.md R241). -/
theorem vcid_or_report {vcid report : Word} (hvcid : vcid.toNat ≤ 63) (hreport : report.toNat ≤ 255) :
    (vcid <<< 18) ||| report = BitVec.ofNat 32 (vcid.toNat * 2 ^ 18 + report.toNat) := by
  apply BitVec.eq_of_toNat_eq
  rw [BitVec.toNat_or, shiftLeft_toNat_of_lt (by omega), or_eq_add _ _ _ (by omega), BitVec.toNat_ofNat,
    Nat.mod_eq_of_lt (by omega)]

/-! The range check of CLCW_ENC_FULL (46_clcw.md R242) -/

/-- The operand checks raise for the first operand out of range. -/
theorem requireArgs_eq_error {s : State} {l : List (Fin 16 × Nat)} {n : Nat} {i : Fin 16} {max : Nat}
    (hn : l[n]? = some (i, max)) (hfirst : ∀ p ∈ l.take n, argNat s p.1 ≤ p.2) (hi : max < argNat s i) :
    requireArgs s l = .error ⟨.outOfRange, BitVec.ofNat 32 i.val⟩ := by
  induction n generalizing l with
  | zero =>
    obtain ⟨rest, rfl⟩ := List.head?_eq_some_iff.mp (List.head?_eq_getElem? ▸ hn)
    rw [requireArgs, requireArg, require_le_bind, if_pos hi]
  | succ n ih =>
    cases l with
    | nil => cases hn
    | cons p rest =>
      obtain ⟨hp, hfirst⟩ := List.forall_mem_cons.mp hfirst
      rw [requireArgs, requireArg, require_le_bind, if_neg (Nat.not_lt.mpr hp)]
      exact ih hn hfirst

/-- The operands of CLCW_ENC_FULL, each with what its field's width holds. -/
def clcwBounds : List (Fin 16 × Nat) := List.zipWith (fun k (f : Nat × Nat) => (k, 2 ^ f.2 - 1)) clcwArgs clcwFields

/-- The maximum of each field, as the ranges of 46_clcw.md R240 write it. -/
def clcwMaxima : List Nat := [1, 3, 7, 3, 63, 1, 1, 1, 1, 1, 3, 255]

theorem clcwBounds_getElem? : ∀ k : Fin 16, k.val < 12 → clcwBounds[k.val]? = some (k, clcwMaxima.getD k.val 0) := by
  decide

theorem of_mem_take_clcwBounds :
    ∀ n ≤ 12, ∀ p ∈ clcwBounds.take n, p.1.val < n ∧ p.2 = clcwMaxima.getD p.1.val 0 := by
  decide

section
variable {s : State}

theorem clcwEncFullBody_of_error {e : CmdError} (h : requireArgs s clcwBounds = .error e) :
    commandBody .clcwEncFull s = .error e := by
  change (requireArgs s clcwBounds >>= _) = _
  rw [h]
  rfl

theorem clcwEncFullBody_eq_ok_iff {w : Writes} :
    commandBody .clcwEncFull s = .ok w ↔
      requireArgs s clcwBounds = .ok () ∧ { results := [(0, clcwPack (clcwArgs.map s.getArg))] } = w := by
  change (requireArgs s clcwBounds >>= _) = _ ↔ _
  rw [bind_eq_ok]
  exact ⟨fun ⟨_, hok, hw⟩ => ⟨hok, Except.ok.inj hw⟩, fun ⟨hok, hw⟩ => ⟨(), hok, congrArg Except.ok hw⟩⟩

theorem requireArgs_clcwBounds_eq_error {k : Fin 16} (hk : k.val < 12) (hgt : clcwMaxima.getD k.val 0 < argNat s k)
    (hfirst : ∀ j : Fin 16, j.val < k.val → argNat s j ≤ clcwMaxima.getD j.val 0) :
    requireArgs s clcwBounds = .error ⟨.outOfRange, BitVec.ofNat 32 k.val⟩ := by
  refine requireArgs_eq_error (clcwBounds_getElem? k hk) (fun p hp => ?_) hgt
  obtain ⟨hlt, hmax⟩ := of_mem_take_clcwBounds k hk.le p hp
  exact hmax ▸ hfirst p.1 hlt

theorem requireArgs_clcwBounds_eq_ok (h : ∀ k : Fin 16, k.val < 12 → argNat s k ≤ clcwMaxima.getD k.val 0) :
    requireArgs s clcwBounds = .ok () := by
  refine (requireArgs_eq_ok s clcwBounds).mpr fun p hp => ?_
  obtain ⟨hlt, hmax⟩ := of_mem_take_clcwBounds 12 le_rfl p hp
  exact hmax ▸ h p.1 hlt

/-- Operands that pass the check fit their fields. -/
theorem fitFields_of_requireArgs (h : requireArgs s clcwBounds = .ok ()) :
    FitFields (clcwArgs.map s.getArg) clcwFields := by
  rw [requireArgs_eq_ok, clcwBounds, ← List.map_uncurry_zip_eq_zipWith, List.forall_mem_map] at h
  rw [FitFields, List.zip_map_left, List.forall_mem_map]
  exact fun p hp => Nat.lt_of_le_sub_one (Nat.two_pow_pos _) (h p hp)

end

/-! Decoding (46_clcw.md R243) -/

theorem exists_mem_zip_clcwFields : ∀ k : Fin 16, k.val < 12 → ∃ f, (k, f) ∈ clcwArgs.zip clcwFields := by
  have h : ∀ k : Fin 16, k.val < 12 → (k, clcwFields.getD k.val (0, 0)) ∈ clcwArgs.zip clcwFields := by decide
  exact fun k hk => ⟨_, h k hk⟩

/-- A value is found under its key, where the keys differ. -/
theorem lookup_zipWith_append {α β γ : Type} [BEq α] [LawfulBEq α] {keys : List α} {l : List β} {g : β → γ}
    (hkeys : keys.Nodup) (rest : List (α × γ)) {p : α × β} (hp : p ∈ keys.zip l) :
    (List.zipWith (fun k b => (k, g b)) keys l ++ rest).lookup p.1 = some (g p.2) := by
  induction keys generalizing l with
  | nil => cases hp
  | cons k keys ih =>
    cases l with
    | nil => cases hp
    | cons b l =>
      obtain ⟨hk, hkeys⟩ := List.nodup_cons.mp hkeys
      rw [List.zipWith_cons_cons, List.cons_append, List.lookup_cons]
      rcases List.mem_cons.mp hp with rfl | hp
      · rw [beq_self_eq_true]
      · have hne : (p.1 == k) = false := beq_eq_false_iff_ne.mpr fun h => hk (h ▸ (List.of_mem_zip hp).1)
        rw [hne]
        exact ih hkeys hp

theorem nodup_clcwArgs : clcwArgs.Nodup := by decide

/-- CLCW_DEC completes with each field in the RES register of its index. -/
theorem clcwDec_fields (u : State) :
    ∃ v, exec .clcwDec u = .next v ∧ ∀ p ∈ clcwArgs.zip clcwFields, v.getRes p.1 = clcwField (u.getArg 0) p.2 := by
  obtain ⟨v, hv, -, -, hres, -⟩ := completes_of_body (i := .clcwDec) (s := u) rfl rfl
  refine ⟨v, hv, fun p hp => (hres p.1).trans ?_⟩
  rw [lookup_zipWith_append nodup_clcwArgs _ hp, Option.getD_some]

theorem getRes_of_completes {i : Instr} {s t : State} {status : Word} {results : List (Fin 16 × Word)}
    {output input : Option (List Byte)} (hc : completes i s status results output input) (h : exec i s = .next t)
    (k : Fin 16) : t.getRes k = (results.lookup k).getD (s.getRes k) := by
  obtain ⟨t', ht, -, -, hres, -⟩ := hc
  cases h.symm.trans ht
  exact hres k

end Sys2Proof.Machine
end

section
/-! PROOF. The statements of the family 46_clcw.md, each from the lemmas above. -/

open Sys2Proof Sys2Proof.Machine

namespace Sys2Proof.Proofs

/-- Settles O49: the two ranges, then VCID above the report value. -/
theorem clcwEncResult : Obligations.ClcwEncResult := by
  refine fun s => failsWith_or_of_bound (clcwEncBody_eq s) rfl fun hvcid hbody =>
    failsWith_or_of_bound hbody rfl fun hreport hbody => ?_
  rw [vcid_or_report hvcid hreport] at hbody
  exact completes_of_body hbody rfl

/-- Settles O50: the check raises for the first field above its maximum; fields in their ranges add up. -/
theorem clcwEncFullResult : Obligations.ClcwEncFullResult := by
  refine fun s => ⟨fun k hk hgt hfirst =>
    failsWith_of_body (clcwEncFullBody_of_error (requireArgs_clcwBounds_eq_error hk hgt hfirst)) rfl, fun hmax => ?_⟩
  have hok := requireArgs_clcwBounds_eq_ok hmax
  have hword := ofNat_eq_of_eq_toNat (clcwPack_toNat (fitFields_of_requireArgs hok)).symm
  have hbody := clcwEncFullBody_eq_ok_iff.mpr ⟨hok, rfl⟩
  rw [← hword] at hbody
  exact completes_of_body hbody rfl

/-- Settles O51: each field by its bits; type has none above it, and the report value none below it. -/
theorem clcwDecodeResult : Obligations.ClcwDecodeResult := by
  intro s w nominal
  have hnominal : boolWord (clcwNominal (s.getArg 0)) = nominal := by rw [clcwNominal_eq, boolWord_decide]; rfl
  have htype : w / 2 ^ 31 = w / 2 ^ 31 % 2 ^ 1 := by
    have : w < 2 ^ 32 := (s.getArg 0).isLt
    omega
  have hreport : w % 256 = w / 2 ^ 0 % 2 ^ 8 := by omega
  have hdec : commandBody .clcwDec s = .ok _ := rfl
  have hnom : commandBody .clcwNominal s = .ok _ := rfl
  rw [hnominal] at hdec hnom
  rw [htype, hreport]
  simp only [clcwArgs, clcwFields, List.zipWith_cons_cons, clcwField_eq] at hdec
  exact ⟨completes_of_body hdec rfl, completes_of_body hnom rfl⟩

/-- Settles O52: for CLCW_ENC by the value of its word; for CLCW_ENC_FULL field by field. -/
theorem clcwRoundTrip : Obligations.ClcwRoundTrip := by
  intro s t u hcopy hdone
  refine ⟨fun h => ?_, fun h => ?_⟩
  · obtain ⟨w, hw, -⟩ := complete_of_doneFlag h hdone
    obtain ⟨hvcid, hw⟩ := check_eq_ok_iff.mp ((clcwEncBody_eq s).symm.trans hw)
    obtain ⟨hreport, -⟩ := check_eq_ok_iff.mp hw
    have henc := clcwEncResult s
    rw [if_neg (Nat.not_lt.mpr hvcid), if_neg (Nat.not_lt.mpr hreport)] at henc
    have hres0 : t.getRes 0 = BitVec.ofNat 32 (argNat s 0 * 2 ^ 18 + argNat s 1) := getRes_of_completes henc h 0
    have hword : argNat u 0 = argNat s 0 * 2 ^ 18 + argNat s 1 := by
      rw [argNat, hcopy, hres0, BitVec.toNat_ofNat, Nat.mod_eq_of_lt (by omega)]
    obtain ⟨v, hv, -, -, hres, -⟩ := (clcwDecodeResult u).1
    have hread : argNat u 0 / 2 ^ 18 % 64 = argNat s 0 ∧ argNat u 0 % 256 = argNat s 1 := by omega
    have hnominal : argNat u 0 / 2 ^ 26 % 8 = 0 ∧ argNat u 0 / 2 ^ 11 % 32 = 0 := by omega
    exact ⟨v, hv, (hres 4).trans (ofNat_eq_of_eq_toNat hread.1), (hres 11).trans (ofNat_eq_of_eq_toNat hread.2),
      (hres 12).trans (if_pos hnominal)⟩
  · obtain ⟨w, hw, -⟩ := complete_of_doneFlag h hdone
    obtain ⟨hok, rfl⟩ := clcwEncFullBody_eq_ok_iff.mp hw
    have hres0 : t.getRes 0 = clcwPack (clcwArgs.map s.getArg) := getRes_of_completes (completes_of_body hw rfl) h 0
    obtain ⟨v, hv, hres⟩ := clcwDec_fields u
    refine ⟨v, hv, fun k hk => ?_⟩
    obtain ⟨f, hf⟩ := exists_mem_zip_clcwFields k hk
    have hmem : (s.getArg k, f) ∈ (clcwArgs.map s.getArg).zip clcwFields :=
      List.zip_map_left ▸ List.mem_map_of_mem hf
    rw [hres _ hf, hcopy, hres0, clcwField_clcwPack (fitFields_of_requireArgs hok) hmem]

end Sys2Proof.Proofs
end

section
/-! SUPPORT. What the platform's reset leaves to be read (70_reset_and_hazards.md R300). -/

namespace Sys2Proof.Machine

@[simp] theorem Memory.written_empty (a : Nat) : Memory.written ⟨[]⟩ a = none := rfl

@[simp] theorem getArg_applyReset (s : State) (k : Fin 16) : s.applyReset.getArg k = 0 := by
  rw [State.getArg, State.applyReset_arg, Fin.getElem_fin, Vector.getElem_replicate]

@[simp] theorem getRes_applyReset (s : State) (k : Fin 16) : s.applyReset.getRes k = 0 := by
  rw [State.getRes, State.applyReset_res, Fin.getElem_fin, Vector.getElem_replicate]

end Sys2Proof.Machine
end

section
/-! PROOF. The statement of the family 70_reset_and_hazards.md, from the lemmas above. -/

open Sys2Proof Sys2Proof.Machine

namespace Sys2Proof.Proofs

/-- Settles O16: the next state is the reset one, and what is left of the queue is no part of what is read there. -/
theorem resetClearsTheBlock : Obligations.ResetClearsTheBlock := by
  intro s rest hq
  exact ⟨(s.withPending rest).applyReset, step_reset s rest hq,
    State.applyReset_cmd _, State.applyReset_status _, State.applyReset_errInfo _, State.applyReset_inLen _,
    State.applyReset_outLen _, fun k => ⟨getArg_applyReset _ k, getRes_applyReset _ k⟩, State.applyReset_params _,
    fun a => ⟨Memory.written_empty a, Memory.written_empty a⟩⟩

end Sys2Proof.Proofs
end
